-- ==== Sys2Proof/Word.lean ====
section
/-! DEFINITION. The word types of the CHIP-8 core: bytes, 16-bit words, register numbers and immediate fields
(spec/00_scope.md R5, R10, R13). Every value is unsigned. -/

namespace Sys2Proof

/-- A general register, a timer, a byte of memory, the immediate `kk` (R5, R13). -/
abbrev Byte := BitVec 8

/-- An opcode, the program counter, the index register, a stack entry (R5). -/
abbrev Word := BitVec 16

/-- A 4-bit field of an opcode. -/
abbrev Nibble := BitVec 4

/-- A register number `x` or `y`: every value names a register (R20). -/
abbrev Reg := BitVec 4

/-- The 12-bit address field `nnn` (R13). -/
abbrev Addr := BitVec 12

/-- The number of VF, the flag register (R21). -/
abbrev VF : Reg := 15#4

end Sys2Proof
end

