-- ==== Sys2Proof/Machine/Flags.lean ====
section
/-! DEFINITION. The flag computations (spec/10_state.md R26): what the flag-setting instructions write to VF. Each takes
the operand values read before the instruction's first write (42_register_alu.md R130). -/

namespace Sys2Proof.Machine

/-- A flag as the byte VF holds. -/
def flagByte (b : Bool) : Byte := if b then 1 else 0

/-- 8xy4: carry, the 9-bit sum exceeds 255 (R137). -/
def carryFlag (a b : Byte) : Byte := flagByte (decide (a.toNat + b.toNat > 255))

/-- 8xy5 and, with the operands reversed, 8xy7: strictly greater (R138, R140). -/
def greaterFlag (a b : Byte) : Byte := flagByte (decide (a.toNat > b.toNat))

/-- 8xy6: the bit shifted out at the low end, `s & 1` (R139). -/
def lowBitFlag (s : Byte) : Byte := s &&& 1

/-- 8xyE: the bit shifted out at the high end, `(s & 0x80) >> 7` (R141). -/
def highBitFlag (s : Byte) : Byte := (s &&& 0x80) >>> 7

/-- Dxyn: the collision accumulated so far and one more pixel's prior value (R184). -/
def collisionFlag (collide prior : Byte) : Byte := collide ||| prior

end Sys2Proof.Machine
end

