-- ==== Sys2Proof/Config.lean ====
section
/-! DEFINITION. What is fixed for one machine: the sizes of spec/00_scope.md R5, the configuration record SPEC of R6,
its reference values, the reference FONT of spec/20_memory.md R55, and the free value RND of R8. -/

namespace Sys2Proof

/-- The six quirks of R6 and R7. Any combination is legal. -/
structure Quirks where
  /-- Carried only: it has no observable effect (R144). -/
  vfResetOnAdd : Bool
  /-- Fx55 and Fx65 advance I by x + 1. -/
  loadStoreIncrementsIndex : Bool
  /-- Carried only: the yield is the host's (R186). -/
  verticalBlankSync : Bool
  /-- Sprites wrap at the edges; clipped when false. -/
  wrapSprites : Bool
  /-- 8xy6 and 8xyE read Vy, not Vx. -/
  shiftUsesSecondOperand : Bool
  /-- Bnnn adds V0. -/
  jumpAddsFirstRegister : Bool
deriving DecidableEq, Repr

/-- The configuration input SPEC (PlatformSpec), R6: read-only to the core, fixed for the session (R37). -/
structure PlatformSpec where
  /-- W, the framebuffer's columns. -/
  videoWidth : Nat
  /-- H, the framebuffer's rows. -/
  videoHeight : Nat
  /-- Bytes per font glyph, used by Fx29. -/
  glyphSize : Nat
  /-- Read by no core rule (R229). -/
  tickRate : Nat
  quirks : Quirks
deriving DecidableEq, Repr

namespace Config

/-- Bytes of memory (R5). -/
abbrev memSize : Nat := 4096
/-- Where the program is loaded and execution starts (R5, R251). -/
abbrev programStart : Nat := 0x200
/-- Entries of the return stack (R5). -/
abbrev stackDepth : Nat := 16
/-- The longest program `load` accepts: 4096 - 0x200 (R5, R252). -/
abbrev maxProgramLen : Nat := 3584

/-- The reference quirks of R6. -/
def referenceQuirks : Quirks where
  vfResetOnAdd := true
  loadStoreIncrementsIndex := false
  verticalBlankSync := true
  wrapSprites := true
  shiftUsesSecondOperand := false
  jumpAddsFirstRegister := true

/-- The reference platform of R6. DESIGN CHOICE (unsafe; log entry 2): the spec gives tickRate no value; 0 stands here. -/
def referenceSpec : PlatformSpec where
  videoWidth := 64
  videoHeight := 32
  glyphSize := 5
  tickRate := 0
  quirks := referenceQuirks

/-- The reference FONT of spec/20_memory.md R55, one row of this table a glyph.
PRESUMED (unsafe; log entry 1): the spec itself marks these bytes as general knowledge. -/
def referenceFont : List Byte :=
  [0xF0, 0x90, 0x90, 0x90, 0xF0] ++
  [0x20, 0x60, 0x20, 0x20, 0x70] ++
  [0xF0, 0x10, 0xF0, 0x80, 0xF0] ++
  [0xF0, 0x10, 0xF0, 0x10, 0xF0] ++
  [0x90, 0x90, 0xF0, 0x10, 0x10] ++
  [0xF0, 0x80, 0xF0, 0x10, 0xF0] ++
  [0xF0, 0x80, 0xF0, 0x90, 0xF0] ++
  [0xF0, 0x10, 0x20, 0x40, 0x40] ++
  [0xF0, 0x90, 0xF0, 0x90, 0xF0] ++
  [0xF0, 0x90, 0xF0, 0x10, 0xF0] ++
  [0xF0, 0x90, 0xF0, 0x90, 0x90] ++
  [0xE0, 0x90, 0xE0, 0x90, 0xE0] ++
  [0xF0, 0x80, 0x80, 0x80, 0xF0] ++
  [0xE0, 0x90, 0x90, 0x90, 0xE0] ++
  [0xF0, 0x80, 0xF0, 0x80, 0xF0] ++
  [0xF0, 0x80, 0xF0, 0x80, 0x80]

/-- The free value RND (R8, R142, 92_eei_decisions.md D29): the byte of the k-th draw of a session.
No body: a claim holds for every sequence of bytes (log entry 3). -/
opaque rndByte : Nat → Byte

end Config
end Sys2Proof
end

