-- ==== Sys2Proof/Machine/State.lean ====
section
/-! DEFINITION. The state of the core (spec/10_state.md R20 to R38), as plain data, the reasons a step can stop,
and the state after reset. -/

namespace Sys2Proof.Machine

/-- The fault causes of spec/60_exceptions.md R221. The core TAKES a fault: the cause is latched in `State.faultCause`
(R220) and the step answers a next state, so no step of the model answers `Outcome.fault` (log entry 4; safe: nothing
the spec gives an effect is left out). -/
inductive Fault where
  /-- Raised by 2nnn when SP = 16 (R113). Latched, then every step idles (R223). Safe: the source calls it fatal. -/
  | stackOverflow
  /-- Raised by 00EE when SP = 0 (R111). Latched, then every step idles (R223). Safe: the source calls it fatal. -/
  | stackUnderflow
  /-- Raised by the fetch when PC > 0xFFE and PC < PEND (R91). Latched, then every step idles (R223). Safe. -/
  | pcRange
  /-- Raised by Dxyn, Fx33, Fx55, Fx65 when an address they would touch is 0x1000 or above (R57). Latched, then every step
  idles (R223). Safe. -/
  | memRange
  /-- Raised by Ex9E and ExA1 when Vx > 15 (R200, R201). Latched, then every step idles (R223). Safe. -/
  | keyRange
deriving DecidableEq, Repr

/-- Why a step has no meaning. -/
inductive Refusal where
  /-- The instruction with this mnemonic has no meaning in the model. Raised by no arm of `exec`: every instruction has
  its meaning. Safe: it stops. -/
  | notModelled (mnemonic : String)
deriving DecidableEq, Repr

/-- A sparse store of bytes: the cells that differ from what an unlisted address reads as. -/
abbrev Cells := List Host.Cell

/-- MEM (R33): the cells that differ from the load contents, addresses strictly rising (`Memory.wf`). -/
abbrev Memory := Cells

/-- FB (R31): the pixels that are not 0, each at its flat index `py * W + px`, indexes strictly rising. -/
abbrev Framebuffer := Cells

/-- The state of the core. The listing of every field with its rule and reset value is INVENTORY.md, "State". -/
structure State where
  /-- V0 to VF (R20); VF is V[15] (R21). -/
  v : Vector Byte 16
  /-- I, the index register (R27). -/
  i : Word
  /-- PC: while an instruction executes, the address of its own first byte (R23). -/
  pc : Word
  /-- SP, the count of stack entries in use, 0 to 16 (R28, R29). -/
  sp : BitVec 5
  /-- STACK[0] to STACK[15] (R28). -/
  stack : Vector Word 16
  /-- DT, the delay timer (R30). -/
  dt : Byte
  /-- ST, the sound timer (R30). -/
  st : Byte
  /-- FB, the framebuffer (R31). -/
  fb : Framebuffer
  /-- KEY[0] to KEY[15], written by the host only (R32). -/
  keys : Vector Bool 16
  /-- MEM (R33). -/
  mem : Memory
  /-- PEND, the end-of-program address (R34). -/
  pend : Word
  /-- FAULTED: a fault is latched (R35). -/
  faulted : Bool
  /-- FAULT_CAUSE (R35). -/
  faultCause : Option Fault
  /-- FAULT_PC: the PC of the step that faulted (R35). -/
  faultPc : Word
  /-- FAULT_OP: the opcode of the step that faulted, none for PC_RANGE (R35). -/
  faultOp : Option Word
  /-- TONE, the "should play tone" flag (R35, R95). -/
  tone : Bool
  /-- UNK: the last step executed an unknown opcode (R35). -/
  unk : Bool
  /-- UNK_OP: the opcode UNK reports (R35). -/
  unkOp : Word
  /-- DRAW: the last step executed Dxyn (R35, R187). -/
  draw : Bool
  /-- SPEC: the configuration given to load (R37, R38). -/
  spec : PlatformSpec
  /-- The model's own: how many random bytes Cxkk has drawn (log entry 3). -/
  rndDraws : Nat
deriving DecidableEq, Repr

/-- What a meaning and a step answer. -/
abbrev Result := Host.Outcome State Fault Refusal

/-- The state `load` builds from the empty program with the reference SPEC and FONT (R38, R250; log entry 5): memory
lists nothing, because an unlisted address reads as the load contents. -/
def State.reset : State where
  v := Vector.replicate 16 0
  i := 0x0000
  pc := 0x0200
  sp := 0
  stack := Vector.replicate 16 0
  dt := 0
  st := 0
  fb := []
  keys := Vector.replicate 16 false
  mem := []
  pend := 0x0200
  faulted := false
  faultCause := none
  faultPc := 0
  faultOp := none
  tone := false
  unk := false
  unkOp := 0x0000
  draw := false
  spec := Config.referenceSpec
  rndDraws := 0

end Sys2Proof.Machine
end

