-- ==== Sys2Proof/Machine/Memory.lean ====
section
/-! DEFINITION. The sparse byte stores behind MEM and FB: reading, writing and the canonical form, once for both.
A store is a list of cells over a base function, which says what an unlisted address reads as. -/

namespace Sys2Proof.Machine

/-! ## Cells over a base -/

/-- The byte at `a`: the listed one, or the base's. -/
def Cells.read (base : Nat → Byte) (m : Cells) (a : Nat) : Byte :=
  match m with
  | [] => base a
  | (k, b) :: rest => if k = a then b else Cells.read base rest a

/-- The cells without any at `a`. -/
def Cells.erase (m : Cells) (a : Nat) : Cells :=
  match m with
  | [] => []
  | (k, b) :: rest => if k = a then Cells.erase rest a else (k, b) :: Cells.erase rest a

/-- The cells with one more, before the first that lies above it. -/
def Cells.insert (m : Cells) (a : Nat) (b : Byte) : Cells :=
  match m with
  | [] => [(a, b)]
  | (k, c) :: rest => if a < k then (a, b) :: (k, c) :: rest else (k, c) :: Cells.insert rest a b

/-- Write one byte. A byte equal to the base's is not listed. -/
def Cells.write (base : Nat → Byte) (m : Cells) (a : Nat) (b : Byte) : Cells :=
  if b = base a then Cells.erase m a else Cells.insert (Cells.erase m a) a b

/-- Write bytes at `a`, `a + 1`, ..., in ascending order. -/
def Cells.writeBytes (base : Nat → Byte) (m : Cells) (a : Nat) : List Byte → Cells
  | [] => m
  | b :: rest => Cells.writeBytes base (Cells.write base m a b) (a + 1) rest

/-- Read the `n` bytes at `a`, `a + 1`, ..., in ascending order. -/
def Cells.readBytes (base : Nat → Byte) (m : Cells) (a : Nat) : Nat → List Byte
  | 0 => []
  | n + 1 => Cells.read base m a :: Cells.readBytes base m (a + 1) n

/-- Canonical from `lo` on: addresses strictly rising from `lo`, no entry equal to what an unlisted address reads as. -/
def Cells.wfFrom (base : Nat → Byte) (lo : Nat) : Cells → Bool
  | [] => true
  | (k, b) :: rest => decide (lo ≤ k) && decide (b ≠ base k) && Cells.wfFrom base (k + 1) rest

/-! ## MEM (spec/20_memory.md) -/

/-- What an address that nothing has written reads as: the load contents of R54, the reference FONT in 0x000 to 0x04F
and zero elsewhere (R38). PRESUMED (unsafe; log entry 1) as to the FONT bytes. -/
def Memory.loadByte (a : Nat) : Byte := Config.referenceFont.getD a 0

/-- MemRead(a, 1) (R11). -/
def Memory.read (m : Memory) (a : Nat) : Byte := Cells.read Memory.loadByte m a

/-- MemWrite(a, 1, b) (R11). -/
def Memory.write (m : Memory) (a : Nat) (b : Byte) : Memory := Cells.write Memory.loadByte m a b

/-- Bytes written at `a` and up, in ascending order. -/
def Memory.writeBytes (m : Memory) (a : Nat) (bs : List Byte) : Memory := Cells.writeBytes Memory.loadByte m a bs

/-- The `n` bytes at `a` and up. -/
def Memory.readBytes (m : Memory) (a n : Nat) : List Byte := Cells.readBytes Memory.loadByte m a n

/-- The canonical form of memory. -/
def Memory.wf (m : Memory) : Bool := Cells.wfFrom Memory.loadByte 0 m

/-! ## FB (spec/10_state.md R31) -/

/-- A pixel that nothing has set is 0 (R38). -/
def Framebuffer.blank (_ : Nat) : Byte := 0

/-- The pixel at a flat index. -/
def Framebuffer.read (fb : Framebuffer) (k : Nat) : Byte := Cells.read Framebuffer.blank fb k

/-- Write the pixel at a flat index. -/
def Framebuffer.write (fb : Framebuffer) (k : Nat) (b : Byte) : Framebuffer := Cells.write Framebuffer.blank fb k b

/-- The canonical form of the framebuffer. -/
def Framebuffer.wf (fb : Framebuffer) : Bool := Cells.wfFrom Framebuffer.blank 0 fb

end Sys2Proof.Machine
end

