-- ==== Sys2Proof/Machine/Operands.lean ====
section
/-! DEFINITION. Reading operands (spec/00_scope.md R11, R12; 30_encoding.md R73). A meaning reads its operands through
these, from the state it is given, before its first write. -/

namespace Sys2Proof.Machine

/-- V[x] (R11). Every register number names a register (R20). -/
def State.reg (s : State) (x : Reg) : Byte := s.v[x.toNat]'(x.isLt)

/-- STACK[k] (R28). There are 16 entries; an index past them, which no reachable state uses, reads 0 (log entry 6). -/
def State.stackAt (s : State) (k : Nat) : Word := s.stack[k]?.getD 0

/-- KEY[k] (R32). There are 16 keys; no meaning asks for a key past them (R200, R201). -/
def State.key (s : State) (k : Nat) : Bool := s.keys[k]?.getD false

/-- MemRead(a, 1) (R11). -/
def State.readMem (s : State) (a : Nat) : Byte := Memory.read s.mem a

/-- The flat index of the pixel at column px, row py (R31, 92_eei_decisions.md D27). -/
def pixelIndex (width px py : Nat) : Nat := py * width + px

/-- FB(px, py) (R11, R31). -/
def State.pixel (s : State) (px py : Nat) : Byte := Framebuffer.read s.fb (pixelIndex s.spec.videoWidth px py)

/-- `zext_16` of a byte (R10). -/
def zextByte (b : Byte) : Word := b.setWidth 16

/-- `zext_16` of an address field (R10, R73). -/
def zextAddr (a : Addr) : Word := a.setWidth 16

/-- I as a byte address, an exact natural: `I + k` does not wrap (43_index_memory.md, introduction). -/
def State.indexAddr (s : State) : Nat := s.i.toNat

/-- An access to the `n` bytes from `a` on touches an address at or above 0x1000 (R57). No byte, no such address. -/
def outOfMemory (a n : Nat) : Bool := decide (0 < n) && decide (a + n - 1 > 0xFFF)

/-- The operand of the shifts: V[y] when shiftUsesSecondOperand is set, V[x] otherwise (R139, R141). -/
def State.shiftOperand (s : State) (x y : Reg) : Byte :=
  if s.spec.quirks.shiftUsesSecondOperand then s.reg y else s.reg x

/-- The offset Bnnn adds: V[0] when jumpAddsFirstRegister is set, 0 otherwise (R114). -/
def State.jumpBase (s : State) : Byte := if s.spec.quirks.jumpAddsFirstRegister then s.reg 0 else 0

/-- The bytes V[0] to V[x], ascending (R164). -/
def State.regsUpTo (s : State) (x : Reg) : List Byte := s.v.toList.take (x.toNat + 1)

/-- The least pressed key, scanning 0 to 15 in ascending order (R202). -/
def State.leastKey (s : State) : Option Nat := (List.range 16).find? s.key

end Sys2Proof.Machine
end

