-- ==== Sys2Proof/Machine/Ops.lean ====
section
/-! DEFINITION. The shared writes of the instruction rules, and taking a fault (spec/60_exceptions.md R220). -/

namespace Sys2Proof.Machine

/-- `V[x] <- b` (R11). -/
def State.setReg (s : State) (x : Reg) (b : Byte) : State := { s with v := s.v.set x.toNat b x.isLt }

/-- `V[x] <- result`, then `VF <- flag`: with x = 15 VF ends as the flag (R130 item 3, 92_eei_decisions.md D14). -/
def State.setRegAndFlag (s : State) (x : Reg) (result flag : Byte) : State := (s.setReg x result).setReg VF flag

/-- `I <- w`. -/
def State.setIndex (s : State) (w : Word) : State := { s with i := w }

/-- `PC <- w` (R11). -/
def State.setPc (s : State) (w : Word) : State := { s with pc := w }

/-- `advance`: `PC <- trunc_16(PC + 2)` (R11, R96). -/
def State.advance (s : State) : State := { s with pc := s.pc + 2 }

/-- A skip: advance, and advance again if the condition holds (R97). -/
def State.skipIf (s : State) (cond : Bool) : State := if cond then s.advance.advance else s.advance

/-- `DT <- b`. -/
def State.setDelay (s : State) (b : Byte) : State := { s with dt := b }

/-- `ST <- b`. -/
def State.setSound (s : State) (b : Byte) : State := { s with st := b }

/-- `STACK[SP] <- w; SP <- SP + 1` (R113). A state with SP past 15, which faults before it comes here, writes no entry
(log entry 6). -/
def State.push (s : State) (w : Word) : State :=
  { s with stack := s.stack.setIfInBounds s.sp.toNat w, sp := s.sp + 1 }

/-- `SP <- SP - 1; PC <- STACK[SP]` (R111). The entry keeps its value (R28). -/
def State.popPc (s : State) : State := { s with sp := s.sp - 1, pc := s.stackAt (s.sp - 1).toNat }

/-- `MemWrite` of bytes from `a` on, in ascending order. -/
def State.writeMem (s : State) (a : Nat) (bs : List Byte) : State := { s with mem := Memory.writeBytes s.mem a bs }

/-- `V[k] <- MemRead(a + k, 1)` for k from 0 to x (R165). -/
def State.loadRegsFrom (s : State) (x : Reg) (a : Nat) : State :=
  { s with v := Vector.ofFn fun k : Fin 16 => if k.val ≤ x.toNat then s.readMem (a + k.val) else s.v[k] }

/-- `if SPEC.quirks.loadStoreIncrementsIndex: I <- trunc_16(I + x + 1)` (R164, R165). -/
def State.bumpIndex (s : State) (x : Reg) : State :=
  if s.spec.quirks.loadStoreIncrementsIndex then { s with i := s.i + x.setWidth 16 + 1 } else s

/-- One draw of the free value RND: the byte is `Config.rndByte s.rndDraws`, and the next draw is another (R8, R142; log
entry 3). -/
def State.countDraw (s : State) : State := { s with rndDraws := s.rndDraws + 1 }

/-- The random byte of the next draw. -/
def State.rndNext (s : State) : Byte := Config.rndByte s.rndDraws

/-- TAKING A FAULT, `raise Fault(cause)` (R220): the record is latched, TONE is cleared, and nothing else changes (R222).
`op` is the opcode of the faulting step, none for PC_RANGE. It changes no mode, pushes nothing and jumps to no vector (R226).
There is no return from a fault: no instruction clears FAULTED, and only `load` leaves it (R223, R227). -/
def State.raiseFault (s : State) (cause : Fault) (op : Option Word) : State :=
  { s with faulted := true, faultCause := some cause, faultPc := s.pc, faultOp := op, tone := false }

/-- The numeric codes of the causes (R221, 92_eei_decisions.md D32). -/
def Fault.code : Fault → Nat
  | .stackOverflow => 1
  | .stackUnderflow => 2
  | .pcRange => 3
  | .memRange => 4
  | .keyRange => 5

end Sys2Proof.Machine
end

