-- ==== Sys2Proof/Machine/Alu.lean ====
section
/-! DEFINITION. The register file and the ALU (spec/42_register_alu.md). Operands are read from the entry state; an
instruction that writes V[x] and VF writes VF last (R130). The vfResetOnAdd quirk changes none of them (R144). -/

namespace Sys2Proof.Machine

/-- 6xkk, load an immediate (R131). -/
def execLdImm (x : Reg) (kk : Byte) (s : State) : Result := .next (s.setReg x kk).advance

/-- 7xkk, add an immediate with no carry (R132). -/
def execAddImm (x : Reg) (kk : Byte) (s : State) : Result := .next (s.setReg x (s.reg x + kk)).advance

/-- 8xy0, copy a register (R133). -/
def execLdReg (x y : Reg) (s : State) : Result := .next (s.setReg x (s.reg y)).advance

/-- 8xy1, bitwise OR (R134). -/
def execOrReg (x y : Reg) (s : State) : Result := .next (s.setReg x (s.reg x ||| s.reg y)).advance

/-- 8xy2, bitwise AND (R135). -/
def execAndReg (x y : Reg) (s : State) : Result := .next (s.setReg x (s.reg x &&& s.reg y)).advance

/-- 8xy3, bitwise XOR (R136). -/
def execXorReg (x y : Reg) (s : State) : Result := .next (s.setReg x (s.reg x ^^^ s.reg y)).advance

/-- 8xy4, add with carry out (R137). -/
def execAddReg (x y : Reg) (s : State) : Result :=
  .next (s.setRegAndFlag x (s.reg x + s.reg y) (carryFlag (s.reg x) (s.reg y))).advance

/-- 8xy5, Vx minus Vy; VF = 1 when Vx > Vy, strictly (R138). -/
def execSubReg (x y : Reg) (s : State) : Result :=
  .next (s.setRegAndFlag x (s.reg x - s.reg y) (greaterFlag (s.reg x) (s.reg y))).advance

/-- 8xy6, shift right by one (R139). -/
def execShr (x y : Reg) (s : State) : Result :=
  .next (s.setRegAndFlag x (s.shiftOperand x y >>> 1) (lowBitFlag (s.shiftOperand x y))).advance

/-- 8xy7, Vy minus Vx; VF = 1 when Vx < Vy, strictly (R140). -/
def execSubnReg (x y : Reg) (s : State) : Result :=
  .next (s.setRegAndFlag x (s.reg y - s.reg x) (greaterFlag (s.reg y) (s.reg x))).advance

/-- 8xyE, shift left by one (R141, 92_eei_decisions.md D15). -/
def execShl (x y : Reg) (s : State) : Result :=
  .next (s.setRegAndFlag x (s.shiftOperand x y <<< 1) (highBitFlag (s.shiftOperand x y))).advance

/-- Cxkk, a random byte under a mask (R142); the byte is a free value (log entry 3). -/
def execRnd (x : Reg) (kk : Byte) (s : State) : Result := .next ((s.setReg x (s.rndNext &&& kk)).countDraw).advance

end Sys2Proof.Machine
end

