-- ==== Sys2Proof/Syntax.lean ====
section
/-! DEFINITION. The instructions of the core: one constructor per row of spec/opcode_table.json (spec/30_encoding.md R75),
with the operand fields of R72. A word no row matches is not an instruction (R76). -/

namespace Sys2Proof

/-- The 34 instructions. `x` and `y` name general registers, `kk` is the immediate byte, `nnn` the 12-bit address,
`n` the row count of Dxyn (R73). 5xy0 and 9xy0 have no `n`: it is ignored (R77). -/
inductive Instr where
  /-- 00E0, clear the framebuffer (R180). -/
  | cls
  /-- 00EE, return from subroutine (R111). -/
  | ret
  /-- 1nnn, jump (R112). -/
  | jp (nnn : Addr)
  /-- 2nnn, call subroutine (R113). -/
  | call (nnn : Addr)
  /-- 3xkk, skip if Vx = kk (R115). -/
  | seImm (x : Reg) (kk : Byte)
  /-- 4xkk, skip if Vx is not kk (R116). -/
  | sneImm (x : Reg) (kk : Byte)
  /-- 5xy0, skip if Vx = Vy (R117). -/
  | seReg (x y : Reg)
  /-- 6xkk, load an immediate (R131). -/
  | ldImm (x : Reg) (kk : Byte)
  /-- 7xkk, add an immediate, no carry (R132). -/
  | addImm (x : Reg) (kk : Byte)
  /-- 8xy0, copy a register (R133). -/
  | ldReg (x y : Reg)
  /-- 8xy1, bitwise OR (R134). -/
  | orReg (x y : Reg)
  /-- 8xy2, bitwise AND (R135). -/
  | andReg (x y : Reg)
  /-- 8xy3, bitwise XOR (R136). -/
  | xorReg (x y : Reg)
  /-- 8xy4, add with carry out (R137). -/
  | addReg (x y : Reg)
  /-- 8xy5, subtract Vx minus Vy (R138). -/
  | subReg (x y : Reg)
  /-- 8xy6, shift right by one (R139). -/
  | shr (x y : Reg)
  /-- 8xy7, subtract Vy minus Vx (R140). -/
  | subnReg (x y : Reg)
  /-- 8xyE, shift left by one (R141). -/
  | shl (x y : Reg)
  /-- 9xy0, skip if Vx is not Vy (R118). -/
  | sneReg (x y : Reg)
  /-- Annn, load the index register (R160). -/
  | ldI (nnn : Addr)
  /-- Bnnn, jump with offset (R114). -/
  | jpV0 (nnn : Addr)
  /-- Cxkk, random byte under a mask (R142). -/
  | rnd (x : Reg) (kk : Byte)
  /-- Dxyn, draw an n-row sprite (R181). -/
  | drw (x y : Reg) (n : Nibble)
  /-- Ex9E, skip if the key Vx is pressed (R200). -/
  | skp (x : Reg)
  /-- ExA1, skip if the key Vx is not pressed (R201). -/
  | sknp (x : Reg)
  /-- Fx07, read the delay timer (R203). -/
  | ldVxDt (x : Reg)
  /-- Fx0A, wait for a key (R202). -/
  | ldVxKey (x : Reg)
  /-- Fx15, set the delay timer (R204). -/
  | ldDtVx (x : Reg)
  /-- Fx18, set the sound timer (R205). -/
  | ldStVx (x : Reg)
  /-- Fx1E, add a register to I (R161). -/
  | addI (x : Reg)
  /-- Fx29, point I at a font glyph (R162). -/
  | ldFont (x : Reg)
  /-- Fx33, store the decimal digits of Vx (R163). -/
  | ldBcd (x : Reg)
  /-- Fx55, store V0 to Vx (R164). -/
  | stRegs (x : Reg)
  /-- Fx65, load V0 to Vx (R165). -/
  | ldRegs (x : Reg)
deriving DecidableEq, Repr

end Sys2Proof
end

