-- ==== Sys2Proof/Decode.lean ====
section
/-! DEFINITION. The decoder and the encoder (spec/30_encoding.md). `decodeWord` is the two-level dispatch of R74;
`opcodeMap` is the mask-and-match map of R75, written down a second time so that the two can be compared;
`encode` fills the fields of R71. -/

namespace Sys2Proof

/-! ## Fields (R13, R71) -/

/-- `c = op[15:12]`, the family. -/
def fieldC (op : Word) : Nibble := op.extractLsb' 12 4
/-- `x = op[11:8]`. -/
def fieldX (op : Word) : Nibble := op.extractLsb' 8 4
/-- `y = op[7:4]`. -/
def fieldY (op : Word) : Nibble := op.extractLsb' 4 4
/-- `n = op[3:0]`. -/
def fieldN (op : Word) : Nibble := op.extractLsb' 0 4
/-- `nn = kk = op[7:0]`. -/
def fieldKK (op : Word) : Byte := op.extractLsb' 0 8
/-- `nnn = op[11:0]`. -/
def fieldNNN (op : Word) : Addr := op.extractLsb' 0 12

/-! ## Decoding -/

/-- Why bytes are no instruction, by name. -/
inductive Reject where
  /-- The word matches no row of the opcode map (R76). The core reports it and goes on (R100). Safe: nothing is left out. -/
  | unknown (op : Word)
  /-- Fewer than the two bytes every instruction has (R70). A step never meets it: it fetches two bytes. -/
  | truncated
deriving DecidableEq, Repr

/-- Family 0: only the whole words 00E0 and 00EE (R74, 92_eei_decisions.md D7). -/
def decodeFamily0 (op : Word) : Except Reject Instr :=
  match op with
  | 0x00E0#16 => .ok .cls
  | 0x00EE#16 => .ok .ret
  | _ => .error (.unknown op)

/-- Family 8: n selects (R74). -/
def decodeFamily8 (op : Word) : Except Reject Instr :=
  match fieldN op with
  | 0x0#4 => .ok (.ldReg (fieldX op) (fieldY op))
  | 0x1#4 => .ok (.orReg (fieldX op) (fieldY op))
  | 0x2#4 => .ok (.andReg (fieldX op) (fieldY op))
  | 0x3#4 => .ok (.xorReg (fieldX op) (fieldY op))
  | 0x4#4 => .ok (.addReg (fieldX op) (fieldY op))
  | 0x5#4 => .ok (.subReg (fieldX op) (fieldY op))
  | 0x6#4 => .ok (.shr (fieldX op) (fieldY op))
  | 0x7#4 => .ok (.subnReg (fieldX op) (fieldY op))
  | 0xE#4 => .ok (.shl (fieldX op) (fieldY op))
  | _ => .error (.unknown op)

/-- Family E: nn selects (R74). -/
def decodeFamilyE (op : Word) : Except Reject Instr :=
  match fieldKK op with
  | 0x9E#8 => .ok (.skp (fieldX op))
  | 0xA1#8 => .ok (.sknp (fieldX op))
  | _ => .error (.unknown op)

/-- Family F: nn selects (R74). -/
def decodeFamilyF (op : Word) : Except Reject Instr :=
  match fieldKK op with
  | 0x07#8 => .ok (.ldVxDt (fieldX op))
  | 0x0A#8 => .ok (.ldVxKey (fieldX op))
  | 0x15#8 => .ok (.ldDtVx (fieldX op))
  | 0x18#8 => .ok (.ldStVx (fieldX op))
  | 0x1E#8 => .ok (.addI (fieldX op))
  | 0x29#8 => .ok (.ldFont (fieldX op))
  | 0x33#8 => .ok (.ldBcd (fieldX op))
  | 0x55#8 => .ok (.stRegs (fieldX op))
  | 0x65#8 => .ok (.ldRegs (fieldX op))
  | _ => .error (.unknown op)

/-- Decode is total on the 65536 words: an instruction, or Unknown (R74). It dispatches on c first.
In families 5 and 9 n is a wildcard (R77, 92_eei_decisions.md D8). -/
def decodeWord (op : Word) : Except Reject Instr :=
  match fieldC op with
  | 0x0#4 => decodeFamily0 op
  | 0x1#4 => .ok (.jp (fieldNNN op))
  | 0x2#4 => .ok (.call (fieldNNN op))
  | 0x3#4 => .ok (.seImm (fieldX op) (fieldKK op))
  | 0x4#4 => .ok (.sneImm (fieldX op) (fieldKK op))
  | 0x5#4 => .ok (.seReg (fieldX op) (fieldY op))
  | 0x6#4 => .ok (.ldImm (fieldX op) (fieldKK op))
  | 0x7#4 => .ok (.addImm (fieldX op) (fieldKK op))
  | 0x8#4 => decodeFamily8 op
  | 0x9#4 => .ok (.sneReg (fieldX op) (fieldY op))
  | 0xA#4 => .ok (.ldI (fieldNNN op))
  | 0xB#4 => .ok (.jpV0 (fieldNNN op))
  | 0xC#4 => .ok (.rnd (fieldX op) (fieldKK op))
  | 0xD#4 => .ok (.drw (fieldX op) (fieldY op) (fieldN op))
  | 0xE#4 => decodeFamilyE op
  | _ => decodeFamilyF op

/-- The word of two bytes, the first in bits 15:8 (R53, R70). -/
def wordOfBytes (hi lo : Byte) : Word := hi ++ lo

/-- The first byte of a word, its bits 15:8 (R70). -/
def highByte (op : Word) : Byte := op.extractLsb' 8 8

/-- The second byte of a word, its bits 7:0 (R70). -/
def lowByte (op : Word) : Byte := op.extractLsb' 0 8

/-- Decoding from a stream of bytes: two bytes are consumed, and the rest is returned (R70, R78). Total. -/
def decodeBytes : List Byte → Except Reject (Instr × List Byte)
  | hi :: lo :: rest =>
    match decodeWord (wordOfBytes hi lo) with
    | .ok i => .ok (i, rest)
    | .error e => .error e
  | _ => .error .truncated

/-! ## Encoding (R71, R72, R75) -/

/-- Formats XKK and XFN: `c`, `x` and the low byte. -/
def packXKK (c : Nibble) (x : Reg) (kk : Byte) : Word := c ++ x ++ kk
/-- Formats XY, ALU and DRW: four nibbles. -/
def packXYN (c : Nibble) (x y : Reg) (n : Nibble) : Word := c ++ x ++ y ++ n
/-- Format ADDR: `c` and the 12-bit address. -/
def packNNN (c : Nibble) (nnn : Addr) : Word := c ++ nnn

/-- The word of an instruction. The ignored n of 5xy0 and 9xy0 is 0, as the row names spell it (R77). -/
def encode : Instr → Word
  | .cls => 0x00E0#16
  | .ret => 0x00EE#16
  | .jp nnn => packNNN 0x1 nnn
  | .call nnn => packNNN 0x2 nnn
  | .seImm x kk => packXKK 0x3 x kk
  | .sneImm x kk => packXKK 0x4 x kk
  | .seReg x y => packXYN 0x5 x y 0x0
  | .ldImm x kk => packXKK 0x6 x kk
  | .addImm x kk => packXKK 0x7 x kk
  | .ldReg x y => packXYN 0x8 x y 0x0
  | .orReg x y => packXYN 0x8 x y 0x1
  | .andReg x y => packXYN 0x8 x y 0x2
  | .xorReg x y => packXYN 0x8 x y 0x3
  | .addReg x y => packXYN 0x8 x y 0x4
  | .subReg x y => packXYN 0x8 x y 0x5
  | .shr x y => packXYN 0x8 x y 0x6
  | .subnReg x y => packXYN 0x8 x y 0x7
  | .shl x y => packXYN 0x8 x y 0xE
  | .sneReg x y => packXYN 0x9 x y 0x0
  | .ldI nnn => packNNN 0xA nnn
  | .jpV0 nnn => packNNN 0xB nnn
  | .rnd x kk => packXKK 0xC x kk
  | .drw x y n => packXYN 0xD x y n
  | .skp x => packXKK 0xE x 0x9E
  | .sknp x => packXKK 0xE x 0xA1
  | .ldVxDt x => packXKK 0xF x 0x07
  | .ldVxKey x => packXKK 0xF x 0x0A
  | .ldDtVx x => packXKK 0xF x 0x15
  | .ldStVx x => packXKK 0xF x 0x18
  | .addI x => packXKK 0xF x 0x1E
  | .ldFont x => packXKK 0xF x 0x29
  | .ldBcd x => packXKK 0xF x 0x33
  | .stRegs x => packXKK 0xF x 0x55
  | .ldRegs x => packXKK 0xF x 0x65

/-- The bytes of an instruction as memory holds them, most significant first (R70). -/
def encodeBytes (i : Instr) : List Byte := [highByte (encode i), lowByte (encode i)]

/-! ## The opcode map (R75) -/

/-- A row of the opcode map: a word selects it when `word & mask = pattern`. -/
structure OpcodeRow where
  pattern : Word
  mask : Word
  instr : Word → Instr

/-- Rows 00E0 to 7xkk of R75. -/
def opcodeMapLow : List OpcodeRow :=
  [⟨0x00E0, 0xFFFF, fun _ => .cls⟩, ⟨0x00EE, 0xFFFF, fun _ => .ret⟩,
   ⟨0x1000, 0xF000, fun w => .jp (fieldNNN w)⟩, ⟨0x2000, 0xF000, fun w => .call (fieldNNN w)⟩,
   ⟨0x3000, 0xF000, fun w => .seImm (fieldX w) (fieldKK w)⟩, ⟨0x4000, 0xF000, fun w => .sneImm (fieldX w) (fieldKK w)⟩,
   ⟨0x5000, 0xF000, fun w => .seReg (fieldX w) (fieldY w)⟩, ⟨0x6000, 0xF000, fun w => .ldImm (fieldX w) (fieldKK w)⟩,
   ⟨0x7000, 0xF000, fun w => .addImm (fieldX w) (fieldKK w)⟩]

/-- Rows 8xy0 to 8xyE of R75. -/
def opcodeMapAlu : List OpcodeRow :=
  [⟨0x8000, 0xF00F, fun w => .ldReg (fieldX w) (fieldY w)⟩, ⟨0x8001, 0xF00F, fun w => .orReg (fieldX w) (fieldY w)⟩,
   ⟨0x8002, 0xF00F, fun w => .andReg (fieldX w) (fieldY w)⟩, ⟨0x8003, 0xF00F, fun w => .xorReg (fieldX w) (fieldY w)⟩,
   ⟨0x8004, 0xF00F, fun w => .addReg (fieldX w) (fieldY w)⟩, ⟨0x8005, 0xF00F, fun w => .subReg (fieldX w) (fieldY w)⟩,
   ⟨0x8006, 0xF00F, fun w => .shr (fieldX w) (fieldY w)⟩, ⟨0x8007, 0xF00F, fun w => .subnReg (fieldX w) (fieldY w)⟩,
   ⟨0x800E, 0xF00F, fun w => .shl (fieldX w) (fieldY w)⟩]

/-- Rows 9xy0 to Dxyn of R75. -/
def opcodeMapHigh : List OpcodeRow :=
  [⟨0x9000, 0xF000, fun w => .sneReg (fieldX w) (fieldY w)⟩, ⟨0xA000, 0xF000, fun w => .ldI (fieldNNN w)⟩,
   ⟨0xB000, 0xF000, fun w => .jpV0 (fieldNNN w)⟩, ⟨0xC000, 0xF000, fun w => .rnd (fieldX w) (fieldKK w)⟩,
   ⟨0xD000, 0xF000, fun w => .drw (fieldX w) (fieldY w) (fieldN w)⟩]

/-- Rows Ex9E to Fx65 of R75. -/
def opcodeMapFn : List OpcodeRow :=
  [⟨0xE09E, 0xF0FF, fun w => .skp (fieldX w)⟩, ⟨0xE0A1, 0xF0FF, fun w => .sknp (fieldX w)⟩,
   ⟨0xF007, 0xF0FF, fun w => .ldVxDt (fieldX w)⟩, ⟨0xF00A, 0xF0FF, fun w => .ldVxKey (fieldX w)⟩,
   ⟨0xF015, 0xF0FF, fun w => .ldDtVx (fieldX w)⟩, ⟨0xF018, 0xF0FF, fun w => .ldStVx (fieldX w)⟩,
   ⟨0xF01E, 0xF0FF, fun w => .addI (fieldX w)⟩, ⟨0xF029, 0xF0FF, fun w => .ldFont (fieldX w)⟩,
   ⟨0xF033, 0xF0FF, fun w => .ldBcd (fieldX w)⟩, ⟨0xF055, 0xF0FF, fun w => .stRegs (fieldX w)⟩,
   ⟨0xF065, 0xF0FF, fun w => .ldRegs (fieldX w)⟩]

/-- The 34 rows of R75, in its order. -/
def opcodeMap : List OpcodeRow := opcodeMapLow ++ opcodeMapAlu ++ opcodeMapHigh ++ opcodeMapFn

/-- A word selects a row (R75). -/
def OpcodeRow.selectedBy (r : OpcodeRow) (w : Word) : Bool := w &&& r.mask == r.pattern

/-- Reading the map: the instruction of the selected row, none for an Unknown word (R75). -/
def decodeByMap (w : Word) : Option Instr :=
  (opcodeMap.find? (·.selectedBy w)).map (·.instr w)

/-- The first word of an instruction as spec/opcode_table.json numbers its bits; the bits from nbits on are 0. -/
def tableWord (nbits w : Nat) : Word := BitVec.ofNat 16 (w % 2 ^ nbits)

/-- The instruction the decoder reads from a table word, laid out as the hardware stores it: high byte first (R53). -/
def decodeTableWord (nbits w : Nat) : Option Instr :=
  match decodeBytes [highByte (tableWord nbits w), lowByte (tableWord nbits w)] with
  | .ok (i, _) => some i
  | .error _ => none

end Sys2Proof
end

