-- ==== Sys2Proof/Machine/Control.lean ====
section
/-! DEFINITION. Control transfer (spec/41_control_transfer.md): return, call, the jumps and the register skips. -/

namespace Sys2Proof.Machine

/-- 00EE, return (R111): STACK_UNDERFLOW when SP = 0. PC takes the popped value with no further advance. -/
def execRet (s : State) : Result :=
  if s.sp = 0 then .next (s.raiseFault .stackUnderflow (some (encode .ret))) else .next s.popPc

/-- 1nnn, jump (R112). -/
def execJp (nnn : Addr) (s : State) : Result := .next (s.setPc (zextAddr nnn))

/-- 2nnn, call (R113): STACK_OVERFLOW when SP = 16. The pushed value is PC + 2 (92_eei_decisions.md D9). -/
def execCall (nnn : Addr) (s : State) : Result :=
  if s.sp = 16 then .next (s.raiseFault .stackOverflow (some (encode (.call nnn))))
  else .next ((s.push (s.pc + 2)).setPc (zextAddr nnn))

/-- Bnnn, jump with offset (R114): no wrap at 12 bits. -/
def execJpV0 (nnn : Addr) (s : State) : Result := .next (s.setPc (zextAddr nnn + zextByte s.jumpBase))

/-- 3xkk, skip if Vx = kk (R115). -/
def execSeImm (x : Reg) (kk : Byte) (s : State) : Result := .next (s.skipIf (s.reg x == kk))

/-- 4xkk, skip if Vx is not kk (R116). -/
def execSneImm (x : Reg) (kk : Byte) (s : State) : Result := .next (s.skipIf (s.reg x != kk))

/-- 5xy0, skip if Vx = Vy (R117). -/
def execSeReg (x y : Reg) (s : State) : Result := .next (s.skipIf (s.reg x == s.reg y))

/-- 9xy0, skip if Vx is not Vy (R118). -/
def execSneReg (x y : Reg) (s : State) : Result := .next (s.skipIf (s.reg x != s.reg y))

end Sys2Proof.Machine
end

