-- ==== Sys2Proof/Machine/Display.lean ====
section
/-! DEFINITION. The display (spec/44_display.md): clear, and the sprite draw with its placement and collision. The
verticalBlankSync quirk changes no step (R186). -/

namespace Sys2Proof.Machine

/-- 00E0, clear the framebuffer (R180): every pixel 0. DRAW is not set. -/
def execCls (s : State) : Result := .next ({ s with fb := [] } : State).advance

/-- Where the bit at column c and row r of a sprite at (vx, vy) goes, none when it is clipped: wrapping (R182), or
clipping with the origin reduced once (R183, 92_eei_decisions.md D19). -/
def place (p : PlatformSpec) (vx vy c r : Nat) : Option (Nat × Nat) :=
  if p.quirks.wrapSprites then some ((vx + c) % p.videoWidth, (vy + r) % p.videoHeight)
  else if vx % p.videoWidth + c < p.videoWidth ∧ vy % p.videoHeight + r < p.videoHeight then
    some (vx % p.videoWidth + c, vy % p.videoHeight + r)
  else none

/-- The flat index of the pixel that column c of the sprite row touches, none when the bit is clear or clipped: column 0
is bit 7 (R181). -/
def bitTarget (p : PlatformSpec) (vx vy r : Nat) (row : Byte) (c : Nat) : Option Nat :=
  if row.getLsbD (7 - c) then (place p vx vy c r).map fun q => pixelIndex p.videoWidth q.1 q.2 else none

/-- The pixels one sprite row touches, column 0 to 7 (R185). -/
def rowPixels (p : PlatformSpec) (vx vy r : Nat) (row : Byte) : List Nat :=
  (List.range 8).filterMap (bitTarget p vx vy r row)

/-- The pixels the rows touch, in order, the first of them being row r (R185). -/
def spritePixels (p : PlatformSpec) (vx vy r : Nat) : List Byte → List Nat
  | [] => []
  | row :: rest => rowPixels p vx vy r row ++ spritePixels p vx vy (r + 1) rest

/-- XOR the touched pixels with 1, one after the other, and accumulate the collision (R181, R184, R185). -/
def xorPixels (fb : Framebuffer) (collide : Byte) : List Nat → Framebuffer × Byte
  | [] => (fb, collide)
  | k :: rest =>
    xorPixels (Framebuffer.write fb k (Framebuffer.read fb k ^^^ 1)) (collisionFlag collide (Framebuffer.read fb k)) rest

/-- The pixels Dxyn touches: V[x], V[y], I and the sprite bytes are read from the entry state (R181,
92_eei_decisions.md D20). -/
def State.touchedPixels (s : State) (x y : Reg) (n : Nibble) : List Nat :=
  spritePixels s.spec (s.reg x).toNat (s.reg y).toNat 0 (Memory.readBytes s.mem s.indexAddr n.toNat)

/-- The effect of a draw on the touched pixels: FB, VF and DRAW (R181, R187). -/
def State.drawPixels (s : State) (ks : List Nat) : State :=
  ({ s with fb := (xorPixels s.fb 0 ks).1, draw := true } : State).setReg VF (xorPixels s.fb 0 ks).2

/-- Dxyn, draw an n-row sprite (R181): MEM_RANGE when n > 0 and I + n - 1 > 0xFFF. -/
def execDrw (x y : Reg) (n : Nibble) (s : State) : Result :=
  if outOfMemory s.indexAddr n.toNat then .next (s.raiseFault .memRange (some (encode (.drw x y n))))
  else .next (s.drawPixels (s.touchedPixels x y n)).advance

end Sys2Proof.Machine
end

