-- ==== Sys2Proof/Machine/IndexMemory.lean ====
section
/-! DEFINITION. The index register and the memory transfers (spec/43_index_memory.md). The bounds check of R57 comes before
the first write. -/

namespace Sys2Proof.Machine

/-- Annn, load the index register (R160). -/
def execLdI (nnn : Addr) (s : State) : Result := .next (s.setIndex (zextAddr nnn)).advance

/-- Fx1E, add a register to I, modulo 2^16, no flag (R161). -/
def execAddI (x : Reg) (s : State) : Result := .next (s.setIndex (s.i + zextByte (s.reg x))).advance

/-- Fx29, point I at a glyph: glyphSize times Vx, Vx not masked (R162). -/
def execLdFont (x : Reg) (s : State) : Result :=
  .next (s.setIndex (BitVec.ofNat 16 (s.spec.glyphSize * (s.reg x).toNat))).advance

/-- The three decimal digits of a byte, most significant first (R163). -/
def bcdDigits (b : Byte) : List Byte :=
  [BitVec.ofNat 8 (b.toNat / 100), BitVec.ofNat 8 (b.toNat / 10 % 10), BitVec.ofNat 8 (b.toNat % 10)]

/-- Fx33, store the decimal digits of Vx (R163): MEM_RANGE when I + 2 > 0xFFF. -/
def execLdBcd (x : Reg) (s : State) : Result :=
  if outOfMemory s.indexAddr 3 then .next (s.raiseFault .memRange (some (encode (.ldBcd x))))
  else .next (s.writeMem s.indexAddr (bcdDigits (s.reg x))).advance

/-- Fx55, store V0 to Vx (R164): MEM_RANGE when I + x > 0xFFF. -/
def execStRegs (x : Reg) (s : State) : Result :=
  if outOfMemory s.indexAddr (x.toNat + 1) then .next (s.raiseFault .memRange (some (encode (.stRegs x))))
  else .next ((s.writeMem s.indexAddr (s.regsUpTo x)).bumpIndex x).advance

/-- Fx65, load V0 to Vx (R165): MEM_RANGE when I + x > 0xFFF. -/
def execLdRegs (x : Reg) (s : State) : Result :=
  if outOfMemory s.indexAddr (x.toNat + 1) then .next (s.raiseFault .memRange (some (encode (.ldRegs x))))
  else .next ((s.loadRegsFrom x s.indexAddr).bumpIndex x).advance

end Sys2Proof.Machine
end

