-- ==== Sys2Proof/Machine/KeypadTimers.lean ====
section
/-! DEFINITION. The keypad and the timer instructions (spec/45_keypad_timers.md). The countdown of the timers belongs to the
step (40_execution_cycle.md R94). -/

namespace Sys2Proof.Machine

/-- Ex9E, skip if the key Vx is pressed (R200): KEY_RANGE when Vx > 15. -/
def execSkp (x : Reg) (s : State) : Result :=
  if (s.reg x).toNat > 15 then .next (s.raiseFault .keyRange (some (encode (.skp x))))
  else .next (s.skipIf (s.key (s.reg x).toNat))

/-- ExA1, skip if the key Vx is not pressed (R201): KEY_RANGE when Vx > 15. -/
def execSknp (x : Reg) (s : State) : Result :=
  if (s.reg x).toNat > 15 then .next (s.raiseFault .keyRange (some (encode (.sknp x))))
  else .next (s.skipIf (!s.key (s.reg x).toNat))

/-- Fx0A, wait for a key (R202): with no key pressed the instruction completes and PC stays. -/
def execLdVxKey (x : Reg) (s : State) : Result :=
  match s.leastKey with
  | some k => .next (s.setReg x (BitVec.ofNat 8 k)).advance
  | none => .next s

/-- Fx07, read the delay timer (R203). -/
def execLdVxDt (x : Reg) (s : State) : Result := .next (s.setReg x s.dt).advance

/-- Fx15, set the delay timer (R204). -/
def execLdDtVx (x : Reg) (s : State) : Result := .next (s.setDelay (s.reg x)).advance

/-- Fx18, set the sound timer (R205). -/
def execLdStVx (x : Reg) (s : State) : Result := .next (s.setSound (s.reg x)).advance

end Sys2Proof.Machine
end

