-- ==== Sys2Proof/Machine/Cycle.lean ====
section
/-! DEFINITION. The parts of the step (spec/40_execution_cycle.md): the fetch, the unknown opcode, the timer tick and the
tone. `step` in Step.lean only puts them together. -/

namespace Sys2Proof.Machine

/-- The opening of every step: UNK and DRAW describe only the most recent step (R98). -/
def State.beginStep (s : State) : State := { s with unk := false, draw := false }

/-- A step that does not execute, FAULTED (R223) or FINISHED (R92): only the per-step outputs change. -/
def State.idleStep (s : State) : State := { s.beginStep with tone := false }

/-- The session is over at or past PEND (R36, R92). -/
def State.atEnd (s : State) : Bool := decide (s.pend.toNat ≤ s.pc.toNat)

/-- A fetch at PC would leave memory (R91). -/
def State.fetchOutOfRange (s : State) : Bool := decide (s.pc.toNat > 0xFFE)

/-- The opcode at PC, big-endian (R53, R91). PC does not change. -/
def State.fetchOp (s : State) : Word := wordOfBytes (s.readMem s.pc.toNat) (s.readMem (s.pc.toNat + 1))

/-- An unknown opcode is reported and passed over (R100). -/
def execUnknown (op : Word) (s : State) : Result := .next ({ s with unk := true, unkOp := op } : State).advance

/-- Decode the fetched word and perform its rule (R93). -/
def execWord (op : Word) (s : State) : Result :=
  match decodeWord op with
  | .ok i => exec i s
  | .error _ => execUnknown op s

/-- One countdown: at most 1 per step, floor 0 (R30, R94). -/
def countDown (b : Byte) : Byte := if b = 0 then 0 else b - 1

/-- The timer tick (R94). -/
def State.tick (s : State) : State := { s with dt := countDown s.dt, st := countDown s.st }

/-- The end of an executed step: the tick, then TONE from ST at the step's start (R94, R95). A fault has ended the step
before it (R222). -/
def State.endStep (st0 : Byte) (s : State) : State :=
  if s.faulted then s else { s.tick with tone := decide (st0.toNat > 0) }

/-- `endStep` on what a meaning answers. -/
def finishStep (st0 : Byte) (r : Result) : Result :=
  match r with
  | .next t => .next (t.endStep st0)
  | .fault f => .fault f
  | .refused f => .refused f

end Sys2Proof.Machine
end

