-- ==== Sys2Proof/Machine/Step.lean ====
section
/-! DEFINITION. The step (spec/40_execution_cycle.md R98) and the placing of one instruction where it fetches. -/

namespace Sys2Proof.Machine

/-- One step, R98: FAULTED and FINISHED steps idle, a fetch past 0xFFE raises PC_RANGE, every other step fetches, executes,
ticks the timers and sets TONE. -/
def step (s : State) : Host.Outcome State Fault Refusal :=
  if s.faulted then .next s.idleStep
  else if s.atEnd then .next s.idleStep
  else if s.fetchOutOfRange then .next (s.beginStep.raiseFault .pcRange none)
  else finishStep s.st (execWord s.fetchOp s.beginStep)

/-- The state with a table word stored at PC, high byte first, and PEND past it, so that the next step runs it: what
`load` does for a program of that one word (R250; log entry 5). -/
def State.withFetchWord (s : State) (nbits w : Nat) : State :=
  { s.writeMem s.pc.toNat [highByte (tableWord nbits w), lowByte (tableWord nbits w)] with
    pend := if s.pend.toNat < s.pc.toNat + 2 then s.pc + 2 else s.pend }

end Sys2Proof.Machine
end

