-- ==== Sys2Proof/WellFormed.lean ====
section
/-! DEFINITION. What is checked before a machine is built. An instruction needs no check of its own: every operand is a
bit field of the width the encoding gives it (spec/30_encoding.md R71), and every value of a field is legal (R20, R73).
What can be ill-formed is what the host gives to `load`: SPEC, FONT and the program (spec/00_scope.md R6, R8, R252). -/

namespace Sys2Proof

/-- SPEC is legal: W and H at least 1, glyphSize 1 to 32 (R6, 92_eei_decisions.md D40, D41). -/
def PlatformSpec.wellFormed (p : PlatformSpec) : Bool :=
  decide (1 ≤ p.videoWidth) && decide (1 ≤ p.videoHeight) && decide (1 ≤ p.glyphSize) && decide (p.glyphSize ≤ 32)

/-- FONT is 16 glyphs of glyphSize bytes (R8, 20_memory.md R55). -/
def fontWellFormed (p : PlatformSpec) (font : List Byte) : Bool :=
  font.length == 16 * p.glyphSize

/-- A program fits between 0x200 and the end of memory (R252). -/
def programWellFormed (bytes : List Byte) : Bool :=
  decide (bytes.length ≤ Config.maxProgramLen)

end Sys2Proof
end

