-- ==== Sys2Proof/Machine/HostOps.lean ====
section
/-! DEFINITION. The host's operations on the core, between steps (spec/00_scope.md R9): load, the key writes, and what the
host reads. -/

namespace Sys2Proof.Machine

/-- Why `load` builds no state. -/
inductive LoadRefusal where
  /-- LOAD_TOO_LARGE (R252): the program is longer than 3584 bytes. Safe: the spec refuses it. -/
  | tooLarge
  /-- SPEC lies outside the ranges of R6. DESIGN CHOICE (safe; log entry 7): the spec gives it no meaning (D41). -/
  | illegalSpec
  /-- FONT is not 16 * glyphSize bytes. DESIGN CHOICE (safe; log entry 7): the spec requires that length (R55). -/
  | illegalFont
deriving DecidableEq, Repr

/-- The bytes of 0x000 to 0x1FF after load: FONT, then zeros (R54). -/
def fontArea (font : List Byte) : List Byte := font ++ List.replicate (Config.programStart - font.length) 0

/-- MEM after load (R54, R250). -/
def loadMemory (bytes font : List Byte) : Memory :=
  Memory.writeBytes (Memory.writeBytes [] 0 (fontArea font)) Config.programStart bytes

/-- The state `load` builds (R38, R250). -/
def loadedState (bytes : List Byte) (spec : PlatformSpec) (font : List Byte) : State :=
  { State.reset with
    mem := loadMemory bytes font
    pend := BitVec.ofNat 16 (Config.programStart + bytes.length)
    spec := spec }

/-- `load(bytes, SPEC)` with the parameter FONT (R250): a new state, or a refusal (R252). -/
def load (bytes : List Byte) (spec : PlatformSpec) (font : List Byte) : Except LoadRefusal State :=
  if !programWellFormed bytes then .error .tooLarge
  else if !spec.wellFormed then .error .illegalSpec
  else if !fontWellFormed spec font then .error .illegalFont
  else .ok (loadedState bytes spec font)

/-- `setKeys(k[0..15])`: the host writes the keypad, between steps (R9, R32). -/
def State.setKeys (s : State) (keys : Vector Bool 16) : State := { s with keys := keys }

/-- What the host sees of a session (R36). -/
inductive Status where
  | run
  | finished
  | fault
deriving DecidableEq, Repr

/-- The status, computed from the state; FINISHED is not latched (R36). -/
def State.status (s : State) : Status :=
  if s.faulted then .fault else if s.atEnd then .finished else .run

/-- The unknown-opcode report (R9, R101). -/
def State.unknownReport (s : State) : Option Word := if s.unk then some s.unkOp else none

/-- The framebuffer as the host reads it, element py * W + px (R31). -/
def State.flatFramebuffer (s : State) : List Byte :=
  (List.range (s.spec.videoWidth * s.spec.videoHeight)).map (Framebuffer.read s.fb)

end Sys2Proof.Machine
end

