-- ==== Sys2Proof/Machine/Run.lean ====
section
/-! DEFINITION. A run of the core (spec/70_reset_and_hazards.md R259): steps from a state `load` built, with the host's key
writes between them. The key state before each step is an input of the run (R254, 92_eei_decisions.md D44); the random bytes
come from the state's count of draws (log entry 3). -/

namespace Sys2Proof.Machine

/-- The key state the host gives before a step: KEY[0] to KEY[15] (R32). -/
abbrev Keypad := Vector Bool 16

/-- No key is pressed. -/
def Keypad.none : Keypad := Vector.replicate 16 false

/-- One key write and the step after it (R254 item 2: every key write lies between steps). -/
def stepWithKeys (s : State) (k : Keypad) : Result := step (s.setKeys k)

/-- The steps of a run, one for each key state, stopping at the first fault or refusal of the model. -/
def runWithKeys : List Keypad → State → Result
  | [], s => .next s
  | k :: rest, s =>
    match stepWithKeys s k with
    | .next t => runWithKeys rest t
    | .fault f => .fault f
    | .refused r => .refused r

/-- A run of R259: `load` builds the start state, and after a step for each key state the core stands at `t`. -/
def IsRun (bytes : List Byte) (spec : PlatformSpec) (font : List Byte) (keys : List Keypad) (t : State) : Prop :=
  ∃ s, load bytes spec font = .ok s ∧ runWithKeys keys s = .next t

/-- A run ends when the status is FINISHED or FAULT (R36, R259). -/
def State.ended (s : State) : Bool := s.faulted || s.atEnd

/-- A hang (R259): with the key states `keys 0`, `keys 1`, ... the steps from `s` never reach FINISHED or FAULT. -/
def Hangs (s : State) (keys : Nat → Keypad) : Prop :=
  ∀ n, ∃ t, runWithKeys ((List.range n).map keys) s = .next t ∧ t.ended = false

end Sys2Proof.Machine
end

