-- ==== Sys2Proof/Safety.lean ====
section
/-! DEFINITION. The terms claims use: what a state that a session can reach looks like, when a step executes an instruction,
and what an instruction may write. -/

namespace Sys2Proof.Machine

/-- The next step executes an instruction: no fault is latched, PC is below PEND and a fetch at PC is in range
(spec/40_execution_cycle.md R91, R92, R98). -/
def State.Executes (s : State) : Prop :=
  s.faulted = false ∧ s.pc.toNat < s.pend.toNat ∧ s.pc.toNat ≤ 0xFFE

/-- What holds of every state of a session, from `load` on. -/
structure State.Inv (s : State) : Prop where
  /-- SPEC is legal (R6). -/
  specLegal : s.spec.wellFormed = true
  /-- MEM is in canonical form (the model's own), -/
  memWf : Memory.wf s.mem = true
  /-- and nothing is stored at or past 0x1000 (R50, R57). -/
  memInSpace : ∀ c ∈ s.mem, c.1 < Config.memSize
  /-- FB is in canonical form (the model's own), -/
  fbWf : Framebuffer.wf s.fb = true
  /-- every pixel set lies on the W by H screen, -/
  fbOnScreen : ∀ c ∈ s.fb, c.1 < s.spec.videoWidth * s.spec.videoHeight
  /-- and its value is 1: values are restricted to 0 and 1 (R31). -/
  fbBits : ∀ c ∈ s.fb, c.2 = 1
  /-- SP never leaves 0 to 16 (R29). -/
  spInRange : s.sp.toNat ≤ Config.stackDepth
  /-- A return address is at most 0x1000 (R113). -/
  stackInRange : ∀ k, (s.stackAt k).toNat ≤ 0x1000
  /-- PC never passes 0x10FE (R25). -/
  pcInRange : s.pc.toNat ≤ 0x10FE
  /-- PEND lies from 0x200 to 0x1000 (R34). -/
  pendInRange : 0x200 ≤ s.pend.toNat ∧ s.pend.toNat ≤ 0x1000
  /-- Without a fault the record is empty (R38). -/
  recordEmpty : s.faulted = false → s.faultCause = none ∧ s.faultPc = 0 ∧ s.faultOp = none
  /-- With one it holds a cause, the PC the core stopped at, and an opcode unless the cause is PC_RANGE (R220, R222). -/
  recordFull : s.faulted = true →
    ∃ c, s.faultCause = some c ∧ s.faultPc = s.pc ∧ (s.faultOp = none ↔ c = Fault.pcRange)
  /-- A faulted core was below PEND (R224) and its per-step outputs are false (R220, R222, R223). -/
  faultedIdle : s.faulted = true → s.pc.toNat < s.pend.toNat ∧ s.tone = false ∧ s.unk = false ∧ s.draw = false
  /-- A step reports an unknown opcode or a draw, never both (R100, R187). -/
  oneReport : ¬ (s.unk = true ∧ s.draw = true)

/-- What an instruction may write, apart from PC: the registers and the bytes of memory named, and each other piece of
state that is set to true. KEY, PEND and SPEC no instruction writes (R99). -/
structure Footprint where
  regs : List Reg := []
  mem : List Nat := []
  stack : List Nat := []
  index : Bool := false
  sp : Bool := false
  dt : Bool := false
  st : Bool := false
  screen : Bool := false
  /-- DRAW. -/
  draw : Bool := false
  /-- UNK and UNK_OP. -/
  report : Bool := false
  /-- FAULTED, FAULT_CAUSE, FAULT_PC, FAULT_OP. -/
  record : Bool := false
  tone : Bool := false
  /-- The model's count of random draws. -/
  rnd : Bool := false
deriving DecidableEq, Repr

/-- THE FRAME: from s to t nothing changes but PC and what the footprint names. Memory and the screen are said through the
read of one byte and of one pixel. -/
structure Within (f : Footprint) (s t : State) : Prop where
  regs : ∀ r, r ∉ f.regs → t.reg r = s.reg r
  mem : ∀ a, a ∉ f.mem → t.readMem a = s.readMem a
  stack : ∀ k, k ∉ f.stack → t.stackAt k = s.stackAt k
  index : f.index = false → t.i = s.i
  sp : f.sp = false → t.sp = s.sp
  dt : f.dt = false → t.dt = s.dt
  st : f.st = false → t.st = s.st
  screen : f.screen = false → ∀ px py, t.pixel px py = s.pixel px py
  draw : f.draw = false → t.draw = s.draw
  report : f.report = false → t.unk = s.unk ∧ t.unkOp = s.unkOp
  record : f.record = false →
    t.faulted = s.faulted ∧ t.faultCause = s.faultCause ∧ t.faultPc = s.faultPc ∧ t.faultOp = s.faultOp
  tone : f.tone = false → t.tone = s.tone
  rnd : f.rnd = false → t.rndDraws = s.rndDraws
  keys : t.keys = s.keys
  pend : t.pend = s.pend
  spec : t.spec = s.spec

/-- The words that `pattern` and `mask` select decode to the instruction `instr` reads from their fields (R75): the
"Encoding" line of an instruction's rule. -/
def RowDecodes (pattern mask : Word) (instr : Word → Instr) : Prop :=
  ∀ op, op &&& mask = pattern → decodeWord op = .ok (instr op)

/-- TAKING A FAULT, said by what it latches and what it leaves (R220, R222): PC and everything but the record and TONE
stay. -/
def FaultTaken (cause : Fault) (op : Option Word) (s t : State) : Prop :=
  t.faulted = true ∧ t.faultCause = some cause ∧ t.faultPc = s.pc ∧ t.faultOp = op ∧ t.tone = false ∧ t.pc = s.pc ∧
  Within { record := true, tone := true } s t

/-- What a meaning answers, with an update applied to the next state. -/
def mapNext (f : State → State) (r : Result) : Result :=
  match r with
  | .next t => .next (f t)
  | .fault c => .fault c
  | .refused c => .refused c

/-- The data addresses an instruction reads (R51); none when it faults (R57). -/
def dataReads (i : Instr) (s : State) : List Nat :=
  match i with
  | .drw _ _ n => if s.i.toNat + n.toNat ≤ 0x1000 then List.range' s.i.toNat n.toNat else []
  | .ldRegs x => if s.i.toNat + x.toNat < 0x1000 then List.range' s.i.toNat (x.toNat + 1) else []
  | _ => []

/-- The data addresses an instruction writes (R51); none when it faults (R57). -/
def dataWrites (i : Instr) (s : State) : List Nat :=
  match i with
  | .ldBcd _ => if s.i.toNat + 2 < 0x1000 then List.range' s.i.toNat 3 else []
  | .stRegs x => if s.i.toNat + x.toNat < 0x1000 then List.range' s.i.toNat (x.toNat + 1) else []
  | _ => []

/-- The instructions that reach the framebuffer (R52). -/
def reachesScreen : Instr → Bool
  | .cls | .drw _ _ _ => true
  | _ => false

/-- The instructions that reach the keypad (R52). -/
def reachesKeys : Instr → Bool
  | .skp _ | .sknp _ | .ldVxKey _ => true
  | _ => false

/-- The instructions that reach the stack (R52). -/
def reachesStack : Instr → Bool
  | .call _ | .ret => true
  | _ => false

end Sys2Proof.Machine
end

