-- ==== Sys2Proof/Certificates/Slice0/Obligations.lean ====
section
/-! DEFINITION. The statements about the model. Each docstring names the rules of spec/ it formalises, and the decisions of
spec/92_eei_decisions.md it rests on. `t.pc = s.pc + 2` is `advance`, `trunc_16(PC + 2)`; `Within f s t` is the frame: nothing
but PC and what `f` names changes; `RowDecodes` is the "Encoding" line of a rule. -/

section
open Sys2Proof Sys2Proof.Machine

/-! ## Encoding -/

/-- 30_encoding.md sections 1 and 3: decoding the bytes of any instruction, with any bytes behind them, gives that
instruction with every operand, and leaves the rest. -/
def Obligations.DecodeOfEncodeIsTheInstruction : Prop :=
  ∀ (i : Instr) (rest : List Byte), decodeBytes (encodeBytes i ++ rest) = .ok (i, rest)

/-- 30_encoding.md section 3 (R74 and R75 as sections; decisions D7 and D8 for the rows 00E0, 00EE, 5xy0 and 9xy0): the
two-level dispatch of the decoder is the mask-and-match map, the map's rows are disjoint, and a word no row matches is
Unknown. -/
def Obligations.DispatchAgreesWithOpcodeMap : Prop :=
  (∀ op, decodeWord op = match decodeByMap op with
    | some i => .ok i
    | none => .error (.unknown op)) ∧
  opcodeMap.Pairwise (fun r r' => ∀ op, ¬ (r.selectedBy op = true ∧ r'.selectedBy op = true))

/-- 30_encoding.md section 4: the unknown words are exactly the four listed ranges (decision D7 for family 0). -/
def Obligations.UnknownWordsAreTheListedRanges : Prop :=
  ∀ op, decodeWord op = .error (.unknown op) ↔
    (op.toNat ≤ 0x0FFF ∧ op ≠ 0x00E0 ∧ op ≠ 0x00EE) ∨
    (fieldC op = 0x8 ∧ fieldN op ∈ [0x8#4, 0x9#4, 0xA#4, 0xB#4, 0xC#4, 0xD#4, 0xF#4]) ∨
    (fieldC op = 0xE ∧ fieldKK op ∉ [0x9E#8, 0xA1#8]) ∨
    (fieldC op = 0xF ∧
      fieldKK op ∉ [0x07#8, 0x0A#8, 0x15#8, 0x18#8, 0x1E#8, 0x29#8, 0x33#8, 0x55#8, 0x65#8])

/-- 30_encoding.md sections 2 to 4: no bit of a known word is dropped but the ignored n of 5xyN and 9xyN (decision D8). -/
def Obligations.EncodeOfDecodeIsTheWord : Prop :=
  ∀ op i, decodeWord op = .ok i → encode i = if fieldC op = 0x5 ∨ fieldC op = 0x9 then op &&& 0xFFF0 else op

/-- 30_encoding.md section 4, decision D8: 5xyN and 9xyN are 5xy0 and 9xy0 for every N. -/
def Obligations.IgnoredNibbleDoesNotMatter : Prop :=
  ∀ x y n, decodeWord (packXYN 0x5 x y n) = .ok (.seReg x y) ∧ decodeWord (packXYN 0x9 x y n) = .ok (.sneReg x y)

/-- 30_encoding.md section 3: words written out from the opcode map, one of each of the seven formats (FIX, ADDR, XKK, XY, ALU,
DRW, XFN), and an Unknown word. -/
def Obligations.SampleWordsDecode : Prop :=
  decodeWord 0b0000000011101110#16 = .ok .ret ∧
  decodeWord 0b0010001000001010#16 = .ok (.call 0x20A) ∧
  decodeWord 0b0110101000101011#16 = .ok (.ldImm 0xA 0x2B) ∧
  decodeWord 0b0101000100100000#16 = .ok (.seReg 0x1 0x2) ∧
  decodeWord 0b1000001000110110#16 = .ok (.shr 0x2 0x3) ∧
  decodeWord 0b1101000000010010#16 = .ok (.drw 0x0 0x1 0x2) ∧
  decodeWord 0b1111001001100101#16 = .ok (.ldRegs 0x2) ∧
  decodeWord 0b0000000100100011#16 = .error (.unknown 0x0123)

/-! ## The step -/

/-- 40_execution_cycle.md sections 1 to 3: a step that executes runs `exec` of the instruction the two bytes at PC decode to,
high byte first, on the state with UNK and DRAW cleared. If no fault is raised the timers tick and TONE tells whether ST was
above 0 at the start; if one is raised the step ends there. -/
def Obligations.StepRunsTheDecodedInstruction : Prop :=
  ∀ (s : State) (i : Instr), s.Executes →
    decodeWord (wordOfBytes (s.readMem s.pc.toNat) (s.readMem (s.pc.toNat + 1))) = .ok i →
    ∃ t, exec i { s with unk := false, draw := false } = .next t ∧
      (t.faulted = false → step s = .next { t with
        dt := if t.dt = 0 then 0 else t.dt - 1
        st := if t.st = 0 then 0 else t.st - 1
        tone := decide (s.st.toNat > 0) }) ∧
      (t.faulted = true → step s = .next t)

/-- 40_execution_cycle.md, 60_exceptions.md: every step of every state answers a next state, and so does every instruction.
The core never stops the model: a fault is latched (decision D31), an unknown word is reported (decision D6). -/
def Obligations.EveryStepAnswersANextState : Prop :=
  (∀ s : State, ∃ t, step s = .next t) ∧ (∀ (i : Instr) (s : State), ∃ t, exec i s = .next t)

/-- 40_execution_cycle.md section 4, decisions D6 and D35: an unknown word is reported and passed over; the timers tick and
TONE follows, and nothing else changes. -/
def Obligations.UnknownOpcodeIsReportedAndPassed : Prop :=
  ∀ (s : State) (op : Word), s.Executes → s.fetchOp = op → decodeWord op = .error (.unknown op) →
    ∃ t, step s = .next t ∧ t.unk = true ∧ t.unkOp = op ∧ t.draw = false ∧ t.pc = s.pc + 2 ∧
      t.dt.toNat = s.dt.toNat - 1 ∧ t.st.toNat = s.st.toNat - 1 ∧ t.tone = decide (0 < s.st.toNat) ∧
      Within { dt := true, st := true, tone := true, report := true, draw := true } s t

/-- 40_execution_cycle.md R92 (decisions D5, D38) and 60_exceptions.md R223 (decision D31), as sections: a FINISHED or faulted
step changes nothing but TONE, UNK and DRAW, and every PC at or past 0x1000 is FINISHED while PEND is at most 0x1000. -/
def Obligations.FinishedAndFaultedStepsIdle : Prop :=
  ∀ s : State,
    (s.faulted = true → step s = .next { s with tone := false, unk := false, draw := false }) ∧
    (s.pend.toNat ≤ s.pc.toNat → step s = .next { s with tone := false, unk := false, draw := false }) ∧
    (s.pend.toNat ≤ 0x1000 → 0x1000 ≤ s.pc.toNat → step s = .next { s with tone := false, unk := false, draw := false })

/-- 10_state.md section 10 (R36 as a section; decision D38): the status is FAULT when FAULTED is set, else FINISHED when PC
is at or past PEND, else RUN, and the run has ended in the first two. -/
def Obligations.StatusIsComputedFromTheState : Prop :=
  ∀ s : State,
    (s.faulted = true → s.status = .fault ∧ s.ended = true) ∧
    (s.faulted = false → s.pend.toNat ≤ s.pc.toNat → s.status = .finished ∧ s.ended = true) ∧
    (s.faulted = false → s.pc.toNat < s.pend.toNat → s.status = .run ∧ s.ended = false)

/-- 70_reset_and_hazards.md section 5 (R259 as a section; decisions D38, D44): from a state that is FAULTED or whose PC is at or
past PEND, every run, whatever keys the host writes before its steps, answers a state of the same status in which only the
per-step outputs and the host's own keypad differ; after one step or more the outputs are false. -/
def Obligations.EndedRunsStayEnded : Prop :=
  ∀ (keys : List Keypad) (s : State), s.faulted = true ∨ s.pend.toNat ≤ s.pc.toNat →
    ∃ t, runWithKeys keys s = .next t ∧ t.status = s.status ∧
      t = { s with keys := keys.getLastD s.keys, tone := t.tone, unk := t.unk, draw := t.draw } ∧
      (keys ≠ [] → t.tone = false ∧ t.unk = false ∧ t.draw = false)

/-- 70_reset_and_hazards.md section 5 (R259 as a section), 41_control_transfer.md section 2 and 45_keypad_timers.md section
2: the hangs are kept. A jump to its own address runs for ever whatever keys are pressed, and so does Fx0A while no key is
pressed: the run never reaches FINISHED or FAULT. -/
def Obligations.HangsAreKept : Prop :=
  (∀ (s : State) (nnn : Addr), s.Executes → decodeWord s.fetchOp = .ok (.jp nnn) → s.pc.toNat = nnn.toNat →
    ∀ keys, Hangs s keys) ∧
  (∀ (s : State) (x : Reg), s.Executes → decodeWord s.fetchOp = .ok (.ldVxKey x) →
    ∀ keys, (∀ n, keys n = Keypad.none) → Hangs s keys)

/-- 40_execution_cycle.md section 1 (decision D11): a fetch past 0xFFE below PEND takes the fault PC_RANGE, with no opcode;
while PEND is at most 0x1000 this happens at PC = 0xFFF with PEND = 0x1000 only. -/
def Obligations.FetchPastMemoryTakesPcRange : Prop :=
  ∀ s : State, s.faulted = false → s.pc.toNat < s.pend.toNat → 0xFFE < s.pc.toNat →
    (∃ t, step s = .next t ∧ t.unk = false ∧ t.draw = false ∧
      FaultTaken .pcRange none { s with unk := false, draw := false } t) ∧
    (s.pend.toNat ≤ 0x1000 → s.pc = 0xFFF ∧ s.pend = 0x1000)

/-- 40_execution_cycle.md section 1 (decisions D22, D23; 45_keypad_timers.md section 3): every executed step counts each timer
down by one, floor 0, after the instruction; Fx15 and Fx18 leave Vx - 1, or 0; TONE is whether ST was above 0 at the
start of the step. -/
def Obligations.TimersCountExecutedSteps : Prop :=
  ∀ (s t : State) (i : Instr), s.Executes → decodeWord s.fetchOp = .ok i → step s = .next t → t.faulted = false →
    t.tone = decide (0 < s.st.toNat) ∧
    t.dt.toNat = (match i with
      | .ldDtVx x => (s.reg x).toNat
      | _ => s.dt.toNat) - 1 ∧
    t.st.toNat = (match i with
      | .ldStVx x => (s.reg x).toNat
      | _ => s.st.toNat) - 1

/-- 40_execution_cycle.md section 3 and 10_state.md section 11: no step writes KEY, PEND or SPEC. -/
def Obligations.NoStepWritesKeysPendOrSpec : Prop :=
  ∀ s t : State, step s = .next t → t.keys = s.keys ∧ t.pend = s.pend ∧ t.spec = s.spec

/-! ## Whole-machine rules -/

/-- 10_state.md section 12 with 00_scope.md section 3: the state after reset meets the invariant. -/
def Obligations.ResetMeetsTheInvariant : Prop := State.reset.Inv

/-- 70_reset_and_hazards.md section 1: every state `load` builds meets the invariant. That its SPEC is legal rests on the
model's choice that `load` refuses an illegal SPEC or FONT (log entry 7). -/
def Obligations.LoadedStatesMeetTheInvariant : Prop :=
  ∀ bytes spec font s, load bytes spec font = .ok s → s.Inv

/-- 70_reset_and_hazards.md sections 1 and 5 (R259 as a section; decision D44): from every state `load` builds, a run with
any key states before its steps answers a state, and every state a run reaches meets the invariant. That SPEC is legal rests
on the model's choice that `load` refuses an illegal one (log entry 7). -/
def Obligations.EveryRunMeetsTheInvariant : Prop :=
  (∀ bytes spec font s keys, load bytes spec font = .ok s → ∃ t, runWithKeys keys s = .next t) ∧
  (∀ bytes spec font keys t, IsRun bytes spec font keys t → t.Inv)

/-- Every step keeps the invariant: canonical memory and screen inside their spaces, pixels 0 or 1, SP in 0 to 16, return
addresses at most 0x1000, PC at most 0x10FE, PEND and SPEC legal, the fault record consistent with FAULTED
(10_state.md sections 1 to 12, 20_memory.md section 4, 60_exceptions.md section 1). -/
def Obligations.EveryStepKeepsTheInvariant : Prop :=
  ∀ s t : State, s.Inv → step s = .next t → t.Inv

/-- 10_state.md section 5 (R29 as a section; decision D10 for the faults): SP never leaves 0 to 16 (from any state with SP in
range); a push at 16 and a pop at 0 are faults, which leave SP and the stack as they were. -/
def Obligations.StackPointerNeverWraps : Prop :=
  (∀ s t : State, s.sp.toNat ≤ 16 → step s = .next t → t.sp.toNat ≤ 16) ∧
  (∀ (s : State) (nnn : Addr), s.sp = 16 →
    ∃ t, exec (.call nnn) s = .next t ∧ t.faulted = true ∧ t.faultCause = some .stackOverflow ∧ t.sp = s.sp ∧
      t.stack = s.stack) ∧
  (∀ s : State, s.sp = 0 →
    ∃ t, exec .ret s = .next t ∧ t.faulted = true ∧ t.faultCause = some .stackUnderflow ∧ t.sp = s.sp ∧
      t.stack = s.stack)

/-- 60_exceptions.md R222 (decisions D10 to D13) as a section: faults are precise. A step that faults latches its record with
the PC and the fetched opcode (none for PC_RANGE), clears the per-step outputs and changes nothing else: PC, the registers,
memory, the screen, the stack and the timers stay. -/
def Obligations.FaultsArePrecise : Prop :=
  ∀ s t : State, s.faulted = false → step s = .next t → t.faulted = true →
    ∃ c, t = { s with
      faulted := true
      faultCause := some c
      faultPc := s.pc
      faultOp := if c = .pcRange then none else some s.fetchOp
      tone := false
      unk := false
      draw := false }

/-- 60_exceptions.md R221 (decisions D12, D13, D32) as a section: which instruction raises which cause, and exactly when. -/
def Obligations.FaultCausesAreTheListedOnes : Prop :=
  ∀ (i : Instr) (s t : State), s.faulted = false → s.faultCause = none → exec i s = .next t →
    t.faultCause = match i with
      | .call _ => if s.sp = 16 then some .stackOverflow else none
      | .ret => if s.sp = 0 then some .stackUnderflow else none
      | .drw _ _ n => if 0 < n.toNat ∧ 0xFFF < s.i.toNat + n.toNat - 1 then some .memRange else none
      | .ldBcd _ => if 0xFFF < s.i.toNat + 2 then some .memRange else none
      | .stRegs x => if 0xFFF < s.i.toNat + x.toNat then some .memRange else none
      | .ldRegs x => if 0xFFF < s.i.toNat + x.toNat then some .memRange else none
      | .skp x => if 15 < (s.reg x).toNat then some .keyRange else none
      | .sknp x => if 15 < (s.reg x).toNat then some .keyRange else none
      | _ => none

/-- 20_memory.md sections 1 and 4 (R51, R57 as sections; decision D12): an instruction reads only the bytes of `dataReads` and
writes only those of `dataWrites`. With another memory that agrees on the bytes it reads, it does the same: the next states
differ in memory alone, the bytes written are the same, and every other byte is as it was in its own memory. -/
def Obligations.InstructionsReachOnlyTheirBytes : Prop :=
  ∀ (i : Instr) (s : State) (m : Memory), (∀ a ∈ dataReads i s, Memory.read m a = s.readMem a) →
    ∃ t t' : State, exec i s = .next t ∧ exec i { s with mem := m } = .next t' ∧ t' = { t with mem := t'.mem } ∧
      (∀ a ∈ dataWrites i s, t'.readMem a = t.readMem a) ∧
      (∀ a, a ∉ dataWrites i s → t.readMem a = s.readMem a ∧ t'.readMem a = Memory.read m a)

/-- 20_memory.md section 1 (R52 as a section): the framebuffer is reached only by 00E0 and Dxyn, the keypad only by Ex9E, ExA1
and Fx0A, the stack only by 2nnn and
00EE: every other instruction does the same whatever they hold, and leaves them as they are. -/
def Obligations.SeparateStoresAreReachedOnlyByTheirInstructions : Prop :=
  ∀ (i : Instr) (s : State),
    (reachesScreen i = false → ∀ fb, exec i { s with fb := fb } = mapNext (fun t => { t with fb := fb }) (exec i s)) ∧
    (reachesKeys i = false →
      ∀ ks, exec i { s with keys := ks } = mapNext (fun t => { t with keys := ks }) (exec i s)) ∧
    (reachesStack i = false → ∀ st sp, exec i { s with stack := st, sp := sp } =
      mapNext (fun t => { t with stack := st, sp := sp }) (exec i s))

/-- 42_register_alu.md R144, 44_display.md R186 and 60_exceptions.md R229 as sections (decisions D17, D18, D37): vfResetOnAdd,
verticalBlankSync and tickRate change no instruction. -/
def Obligations.ThreeSettingsHaveNoEffect : Prop :=
  ∀ (i : Instr) (s : State) (a b : Bool) (r : Nat),
    exec i { s with spec := { s.spec with
        tickRate := r
        quirks := { s.spec.quirks with vfResetOnAdd := a, verticalBlankSync := b } } } =
      mapNext (fun t => { t with spec := { s.spec with
        tickRate := r
        quirks := { s.spec.quirks with vfResetOnAdd := a, verticalBlankSync := b } } }) (exec i s)

/-! ## Control transfer (41_control_transfer.md) -/

/-- 00EE, R111 as a section (decisions D9, D10, D39): PC and SP take the popped values, the entry keeps its value; with SP = 0
the fault STACK_UNDERFLOW is taken. -/
def Obligations.ReturnPopsThePc : Prop :=
  RowDecodes 0x00EE 0xFFFF (fun _ => .ret) ∧
  ∀ s : State,
    (s.sp ≠ 0 → ∃ t, exec .ret s = .next t ∧ t.sp.toNat = s.sp.toNat - 1 ∧ t.pc = s.stackAt (s.sp.toNat - 1) ∧
      Within { sp := true } s t) ∧
    (s.sp = 0 → ∃ t, exec .ret s = .next t ∧ FaultTaken .stackUnderflow (some 0x00EE) s t)

/-- 1nnn, R112: PC takes nnn, with no advance; a jump to its own address is executed again, and the timers tick. -/
def Obligations.JumpSetsThePc : Prop :=
  RowDecodes 0x1000 0xF000 (fun w => .jp (fieldNNN w)) ∧
  (∀ (s : State) (nnn : Addr),
    ∃ t, exec (.jp nnn) s = .next t ∧ t.pc.toNat = nnn.toNat ∧ Within {} s t) ∧
  (∀ (s : State) (nnn : Addr), s.Executes → decodeWord s.fetchOp = .ok (.jp nnn) → s.pc.toNat = nnn.toNat →
    ∃ t, step s = .next t ∧ t.pc = s.pc ∧ t.fetchOp = s.fetchOp ∧ t.Executes ∧
      t.dt.toNat = s.dt.toNat - 1 ∧ t.st.toNat = s.st.toNat - 1)

/-- 2nnn, R113 as a section (decisions D9, D10): STACK[SP] takes PC + 2, SP counts up, PC takes nnn; with SP = 16 the fault
STACK_OVERFLOW is taken. SP at most 16 is the invariant of R29. -/
def Obligations.CallPushesTheReturnAddress : Prop :=
  RowDecodes 0x2000 0xF000 (fun w => .call (fieldNNN w)) ∧
  ∀ (s : State) (nnn : Addr),
    (s.sp.toNat < 16 → ∃ t, exec (.call nnn) s = .next t ∧ t.stackAt s.sp.toNat = s.pc + 2 ∧
      t.sp.toNat = s.sp.toNat + 1 ∧ t.pc.toNat = nnn.toNat ∧ Within { stack := [s.sp.toNat], sp := true } s t) ∧
    (s.sp = 16 → ∃ t op, exec (.call nnn) s = .next t ∧ decodeWord op = .ok (.call nnn) ∧
      FaultTaken .stackOverflow (some op) s t)

/-- 41_control_transfer.md section 2 and 90_conflicts.md C2: a call, any change that leaves the stack alone, and a return come
back to the opcode after the call, with SP as before. -/
def Obligations.CallThenReturnComesBack : Prop :=
  ∀ (s : State) (nnn : Addr), s.sp.toNat < 16 →
    ∃ t, exec (.call nnn) s = .next t ∧
      ∀ u : State, u.stack = t.stack → u.sp = t.sp →
        ∃ w, exec .ret u = .next w ∧ w.pc = s.pc + 2 ∧ w.sp = s.sp ∧ w.stack = t.stack

/-- Bnnn, R114 as a section (decision D16): PC takes nnn plus V0 when the quirk is set, nnn when it is clear; no wrap. -/
def Obligations.IndirectJumpAddsV0 : Prop :=
  RowDecodes 0xB000 0xF000 (fun w => .jpV0 (fieldNNN w)) ∧
  ∀ (s : State) (nnn : Addr), ∃ t, exec (.jpV0 nnn) s = .next t ∧
    t.pc.toNat = nnn.toNat + (if s.spec.quirks.jumpAddsFirstRegister then (s.reg 0).toNat else 0) ∧ Within {} s t

/-- 3xkk and 4xkk, R115 and R116: PC moves by 4 when Vx = kk, respectively when Vx is not kk, and by 2 otherwise;
nothing else changes. -/
def Obligations.ImmediateSkips : Prop :=
  RowDecodes 0x3000 0xF000 (fun w => .seImm (fieldX w) (fieldKK w)) ∧
  RowDecodes 0x4000 0xF000 (fun w => .sneImm (fieldX w) (fieldKK w)) ∧
  ∀ (s : State) (x : Reg) (kk : Byte),
    (∃ t, exec (.seImm x kk) s = .next t ∧ t.pc = (if s.reg x = kk then s.pc + 4 else s.pc + 2) ∧ Within {} s t) ∧
    (∃ t, exec (.sneImm x kk) s = .next t ∧ t.pc = (if s.reg x ≠ kk then s.pc + 4 else s.pc + 2) ∧ Within {} s t)

/-- 5xy0 and 9xy0, R117 and R118 as sections (decision D8 for the ignored n): PC moves by 4 when Vx = Vy, respectively when
Vx is not Vy, and by 2 otherwise; nothing else changes. -/
def Obligations.RegisterSkips : Prop :=
  RowDecodes 0x5000 0xF000 (fun w => .seReg (fieldX w) (fieldY w)) ∧
  RowDecodes 0x9000 0xF000 (fun w => .sneReg (fieldX w) (fieldY w)) ∧
  ∀ (s : State) (x y : Reg),
    (∃ t, exec (.seReg x y) s = .next t ∧ t.pc = (if s.reg x = s.reg y then s.pc + 4 else s.pc + 2) ∧ Within {} s t) ∧
    (∃ t, exec (.sneReg x y) s = .next t ∧ t.pc = (if s.reg x ≠ s.reg y then s.pc + 4 else s.pc + 2) ∧ Within {} s t)

/-! ## Registers and ALU (42_register_alu.md) -/

/-- 6xkk and 7xkk, R131 and R132: Vx takes kk; Vx takes Vx + kk modulo 256; no flag, and with x = 15 VF is the
destination. -/
def Obligations.LoadAndAddImmediate : Prop :=
  RowDecodes 0x6000 0xF000 (fun w => .ldImm (fieldX w) (fieldKK w)) ∧
  RowDecodes 0x7000 0xF000 (fun w => .addImm (fieldX w) (fieldKK w)) ∧
  ∀ (s : State) (x : Reg) (kk : Byte),
    (∃ t, exec (.ldImm x kk) s = .next t ∧ t.reg x = kk ∧ t.pc = s.pc + 2 ∧ Within { regs := [x] } s t) ∧
    (∃ t, exec (.addImm x kk) s = .next t ∧ (t.reg x).toNat = ((s.reg x).toNat + kk.toNat) % 256 ∧ t.pc = s.pc + 2 ∧
      Within { regs := [x] } s t)

/-- 8xy0 to 8xy3, R133 to R136: Vx takes Vy, or the OR, AND, XOR of Vx and Vy bit by bit; no flag but as the
destination, and vfResetOnAdd does not apply. -/
def Obligations.CopyAndLogic : Prop :=
  RowDecodes 0x8000 0xF00F (fun w => .ldReg (fieldX w) (fieldY w)) ∧
  RowDecodes 0x8001 0xF00F (fun w => .orReg (fieldX w) (fieldY w)) ∧
  RowDecodes 0x8002 0xF00F (fun w => .andReg (fieldX w) (fieldY w)) ∧
  RowDecodes 0x8003 0xF00F (fun w => .xorReg (fieldX w) (fieldY w)) ∧
  ∀ (s : State) (x y : Reg),
    (∃ t, exec (.ldReg x y) s = .next t ∧ t.reg x = s.reg y ∧ t.pc = s.pc + 2 ∧ Within { regs := [x] } s t) ∧
    (∃ t, exec (.orReg x y) s = .next t ∧
      (∀ k, (t.reg x).getLsbD k = ((s.reg x).getLsbD k || (s.reg y).getLsbD k)) ∧ t.pc = s.pc + 2 ∧
      Within { regs := [x] } s t) ∧
    (∃ t, exec (.andReg x y) s = .next t ∧
      (∀ k, (t.reg x).getLsbD k = ((s.reg x).getLsbD k && (s.reg y).getLsbD k)) ∧ t.pc = s.pc + 2 ∧
      Within { regs := [x] } s t) ∧
    (∃ t, exec (.xorReg x y) s = .next t ∧
      (∀ k, (t.reg x).getLsbD k = ((s.reg x).getLsbD k ^^ (s.reg y).getLsbD k)) ∧ t.pc = s.pc + 2 ∧
      Within { regs := [x] } s t)

/-- 8xy4, R137 as a section (decision D14 for x = 15): the 9-bit sum, its low 8 bits in Vx, its carry in VF; with
x = 15 VF holds the carry. -/
def Obligations.AddSetsCarry : Prop :=
  RowDecodes 0x8004 0xF00F (fun w => .addReg (fieldX w) (fieldY w)) ∧
  ∀ (s : State) (x y : Reg), ∃ t, exec (.addReg x y) s = .next t ∧
    (t.reg VF).toNat = (if 255 < (s.reg x).toNat + (s.reg y).toNat then 1 else 0) ∧
    (x ≠ VF → (t.reg x).toNat = ((s.reg x).toNat + (s.reg y).toNat) % 256) ∧
    t.pc = s.pc + 2 ∧ Within { regs := [x, VF] } s t

/-- 8xy5 and 8xy7, R138 and R140 as sections (decision D14: VF is written last): Vx takes Vx - Vy, respectively
Vy - Vx, modulo 256; VF is 1 when the value subtracted from was strictly greater on entry, and with x = 15 VF holds that
flag. -/
def Obligations.SubtractionsSetNotBorrow : Prop :=
  RowDecodes 0x8005 0xF00F (fun w => .subReg (fieldX w) (fieldY w)) ∧
  RowDecodes 0x8007 0xF00F (fun w => .subnReg (fieldX w) (fieldY w)) ∧
  ∀ (s : State) (x y : Reg),
    (∃ t, exec (.subReg x y) s = .next t ∧
      (t.reg VF).toNat = (if (s.reg y).toNat < (s.reg x).toNat then 1 else 0) ∧
      (x ≠ VF → (t.reg x).toNat = ((s.reg x).toNat + 256 - (s.reg y).toNat) % 256) ∧
      t.pc = s.pc + 2 ∧ Within { regs := [x, VF] } s t) ∧
    (∃ t, exec (.subnReg x y) s = .next t ∧
      (t.reg VF).toNat = (if (s.reg x).toNat < (s.reg y).toNat then 1 else 0) ∧
      (x ≠ VF → (t.reg x).toNat = ((s.reg y).toNat + 256 - (s.reg x).toNat) % 256) ∧
      t.pc = s.pc + 2 ∧ Within { regs := [x, VF] } s t)

/-- 8xy6 and 8xyE, R139 and R141 as sections (decisions D14, D15): the operand is Vy under the quirk and Vx otherwise; Vx
takes it shifted by one and VF the bit shifted out, and with x = 15 VF holds that bit. -/
def Obligations.ShiftsSetTheBitShiftedOut : Prop :=
  RowDecodes 0x8006 0xF00F (fun w => .shr (fieldX w) (fieldY w)) ∧
  RowDecodes 0x800E 0xF00F (fun w => .shl (fieldX w) (fieldY w)) ∧
  ∀ (s : State) (x y : Reg) (v : Nat),
    v = (s.reg (if s.spec.quirks.shiftUsesSecondOperand then y else x)).toNat →
    (∃ t, exec (.shr x y) s = .next t ∧ (t.reg VF).toNat = v % 2 ∧ (x ≠ VF → (t.reg x).toNat = v / 2) ∧
      t.pc = s.pc + 2 ∧ Within { regs := [x, VF] } s t) ∧
    (∃ t, exec (.shl x y) s = .next t ∧ (t.reg VF).toNat = v / 128 ∧ (x ≠ VF → (t.reg x).toNat = 2 * v % 256) ∧
      t.pc = s.pc + 2 ∧ Within { regs := [x, VF] } s t)

/-- Cxkk, R142 as a section (decision D29; log entry 3 for the model's counter of draws): Vx takes the random byte under the
mask, whatever byte it is; no bit outside the mask is set, and the next draw is another. -/
def Obligations.RandomByteIsMasked : Prop :=
  RowDecodes 0xC000 0xF000 (fun w => .rnd (fieldX w) (fieldKK w)) ∧
  ∀ (s : State) (x : Reg) (kk : Byte), ∃ t, exec (.rnd x kk) s = .next t ∧
    (∀ k, (t.reg x).getLsbD k = ((Config.rndByte s.rndDraws).getLsbD k && kk.getLsbD k)) ∧
    t.rndDraws = s.rndDraws + 1 ∧ t.pc = s.pc + 2 ∧ Within { regs := [x], rnd := true } s t

/-! ## Index register and memory (43_index_memory.md) -/

/-- Annn and Fx1E, R160 and R161: I takes nnn; I takes I + Vx modulo 2^16, with no flag. -/
def Obligations.IndexLoadAndAdd : Prop :=
  RowDecodes 0xA000 0xF000 (fun w => .ldI (fieldNNN w)) ∧
  RowDecodes 0xF01E 0xF0FF (fun w => .addI (fieldX w)) ∧
  (∀ (s : State) (nnn : Addr),
    ∃ t, exec (.ldI nnn) s = .next t ∧ t.i.toNat = nnn.toNat ∧ t.pc = s.pc + 2 ∧ Within { index := true } s t) ∧
  (∀ (s : State) (x : Reg), ∃ t, exec (.addI x) s = .next t ∧ t.i.toNat = (s.i.toNat + (s.reg x).toNat) % 65536 ∧
    t.pc = s.pc + 2 ∧ Within { index := true } s t)

/-- Fx29, R162 as a section: I takes glyphSize times Vx modulo 2^16; Vx is not masked (the spec marks that as derived). -/
def Obligations.FontPointerIsGlyphAddress : Prop :=
  RowDecodes 0xF029 0xF0FF (fun w => .ldFont (fieldX w)) ∧
  ∀ (s : State) (x : Reg), ∃ t, exec (.ldFont x) s = .next t ∧
    t.i.toNat = s.spec.glyphSize * (s.reg x).toNat % 65536 ∧ t.pc = s.pc + 2 ∧ Within { index := true } s t

/-- Fx33, R163 as a section (decision D12 for the bound): three decimal digits at I, I + 1, I + 2, most significant first,
which make up the value; past 0xFFF the fault MEM_RANGE is taken and no byte is written. -/
def Obligations.BcdStoresThreeDigits : Prop :=
  RowDecodes 0xF033 0xF0FF (fun w => .ldBcd (fieldX w)) ∧
  ∀ (s : State) (x : Reg),
    (s.i.toNat + 2 ≤ 0xFFF → ∃ t, exec (.ldBcd x) s = .next t ∧
      (t.readMem s.i.toNat).toNat = (s.reg x).toNat / 100 ∧
      (t.readMem (s.i.toNat + 1)).toNat = (s.reg x).toNat / 10 % 10 ∧
      (t.readMem (s.i.toNat + 2)).toNat = (s.reg x).toNat % 10 ∧
      100 * (t.readMem s.i.toNat).toNat + 10 * (t.readMem (s.i.toNat + 1)).toNat +
        (t.readMem (s.i.toNat + 2)).toNat = (s.reg x).toNat ∧
      t.pc = s.pc + 2 ∧ Within { mem := [s.i.toNat, s.i.toNat + 1, s.i.toNat + 2] } s t) ∧
    (0xFFF < s.i.toNat + 2 → ∃ t op, exec (.ldBcd x) s = .next t ∧ decodeWord op = .ok (.ldBcd x) ∧
      FaultTaken .memRange (some op) s t)

/-- Fx55, R164 as a section (decision D12 for the bound): V0 to Vx go to I to I + x; I moves to I + x + 1 under the quirk and
stays otherwise; past 0xFFF the fault MEM_RANGE is taken and nothing is written. -/
def Obligations.StoreRegistersToMemory : Prop :=
  RowDecodes 0xF055 0xF0FF (fun w => .stRegs (fieldX w)) ∧
  ∀ (s : State) (x : Reg),
    (s.i.toNat + x.toNat ≤ 0xFFF → ∃ t, exec (.stRegs x) s = .next t ∧
      (∀ r : Reg, r.toNat ≤ x.toNat → t.readMem (s.i.toNat + r.toNat) = s.reg r) ∧
      t.i.toNat = s.i.toNat + (if s.spec.quirks.loadStoreIncrementsIndex then x.toNat + 1 else 0) ∧
      t.pc = s.pc + 2 ∧ Within { mem := List.range' s.i.toNat (x.toNat + 1), index := true } s t) ∧
    (0xFFF < s.i.toNat + x.toNat → ∃ t op, exec (.stRegs x) s = .next t ∧ decodeWord op = .ok (.stRegs x) ∧
      FaultTaken .memRange (some op) s t)

/-- Fx65, R165 as a section (decision D12 for the bound): V0 to Vx take the bytes at I to I + x; registers above x stay; I as
for Fx55; past 0xFFF the fault MEM_RANGE is taken and no register is written. -/
def Obligations.LoadRegistersFromMemory : Prop :=
  RowDecodes 0xF065 0xF0FF (fun w => .ldRegs (fieldX w)) ∧
  ∀ (s : State) (x : Reg),
    (s.i.toNat + x.toNat ≤ 0xFFF → ∃ t, exec (.ldRegs x) s = .next t ∧
      (∀ r : Reg, r.toNat ≤ x.toNat → t.reg r = s.readMem (s.i.toNat + r.toNat)) ∧
      (∀ r : Reg, x.toNat < r.toNat → t.reg r = s.reg r) ∧
      t.i.toNat = s.i.toNat + (if s.spec.quirks.loadStoreIncrementsIndex then x.toNat + 1 else 0) ∧
      t.pc = s.pc + 2 ∧ Within { regs := (List.range 16).map (BitVec.ofNat 4), index := true } s t) ∧
    (0xFFF < s.i.toNat + x.toNat → ∃ t op, exec (.ldRegs x) s = .next t ∧ decodeWord op = .ok (.ldRegs x) ∧
      FaultTaken .memRange (some op) s t)

/-- 43_index_memory.md section 2: Fx55, then Fx65 with the same x and I in any state with that memory, gives V0 to Vx back. -/
def Obligations.StoreThenLoadRoundTrips : Prop :=
  ∀ (s : State) (x : Reg), s.i.toNat + x.toNat ≤ 0xFFF →
    ∃ t, exec (.stRegs x) s = .next t ∧
      ∀ u : State, u.i = s.i → u.mem = t.mem →
        ∃ w, exec (.ldRegs x) u = .next w ∧ ∀ r : Reg, r.toNat ≤ x.toNat → w.reg r = s.reg r

/-- 20_memory.md sections 2 and 6 and 70_reset_and_hazards.md section 3 (decision D25): an Fx55 or Fx33 changes what the
next step fetches at PC + 2 and PC + 3 wherever it reaches them: a byte it stored is a register, respectively a decimal
digit, any other is as it was; the byte at the lower address is bits 15:8. -/
def Obligations.StoredBytesAreFetchedNext : Prop :=
  (∀ (s : State) (x : Reg) (byteAt : Nat → Nat), s.i.toNat + x.toNat ≤ 0xFFF → s.pc.toNat + 3 ≤ 0xFFF →
    (∀ a, byteAt a = if s.i.toNat ≤ a ∧ a ≤ s.i.toNat + x.toNat then (s.reg (BitVec.ofNat 4 (a - s.i.toNat))).toNat
      else (s.readMem a).toNat) →
    ∃ t, exec (.stRegs x) s = .next t ∧ t.pc = s.pc + 2 ∧
      t.fetchOp.toNat = 256 * byteAt (s.pc.toNat + 2) + byteAt (s.pc.toNat + 3)) ∧
  (∀ (s : State) (x : Reg) (byteAt : Nat → Nat), s.i.toNat + 2 ≤ 0xFFF → s.pc.toNat + 3 ≤ 0xFFF →
    (∀ a, byteAt a = if a = s.i.toNat then (s.reg x).toNat / 100
      else if a = s.i.toNat + 1 then (s.reg x).toNat / 10 % 10
      else if a = s.i.toNat + 2 then (s.reg x).toNat % 10
      else (s.readMem a).toNat) →
    ∃ t, exec (.ldBcd x) s = .next t ∧ t.pc = s.pc + 2 ∧
      t.fetchOp.toNat = 256 * byteAt (s.pc.toNat + 2) + byteAt (s.pc.toNat + 3))

/-! ## Display (44_display.md) -/

/-- 00E0, R180: every pixel 0; VF, DRAW and everything else but PC as before. -/
def Obligations.ClearScreenClearsEveryPixel : Prop :=
  RowDecodes 0x00E0 0xFFFF (fun _ => .cls) ∧
  ∀ s : State, ∃ t, exec .cls s = .next t ∧ (∀ px py, t.pixel px py = 0) ∧ t.pc = s.pc + 2 ∧
    Within { screen := true } s t

/-- Dxyn, R181 and R185 as sections (decisions D12, D20): each pixel is flipped as often as the sprite touches it, so a
pixel touched twice ends unchanged; DRAW is set. An n of 0 flips nothing and gives VF = 0. With bytes past 0xFFF the fault
MEM_RANGE is taken and no pixel and no flag is written. -/
def Obligations.DrawFlipsTheTouchedPixels : Prop :=
  RowDecodes 0xD000 0xF000 (fun w => .drw (fieldX w) (fieldY w) (fieldN w)) ∧
  ∀ (s : State) (x y : Reg) (n : Nibble),
    (n = 0 ∨ s.i.toNat + n.toNat - 1 ≤ 0xFFF → ∃ t, exec (.drw x y n) s = .next t ∧
      (∀ k, Framebuffer.read t.fb k =
        if (s.touchedPixels x y n).count k % 2 = 1 then Framebuffer.read s.fb k ^^^ 1 else Framebuffer.read s.fb k) ∧
      (n = 0 → t.reg VF = 0) ∧ t.draw = true ∧ t.pc = s.pc + 2 ∧
      Within { regs := [VF], screen := true, draw := true } s t) ∧
    (n ≠ 0 → 0xFFF < s.i.toNat + n.toNat - 1 → ∃ t op, exec (.drw x y n) s = .next t ∧
      decodeWord op = .ok (.drw x y n) ∧ FaultTaken .memRange (some op) s t)

/-- Dxyn, R184 and R185 as sections (decision D20): on a screen of 0s and 1s VF is 1 when some touched pixel was 1 before the
draw, or is touched twice (the later flip finds it set, or the first did), and 0 otherwise. -/
def Obligations.CollisionIsAnyTouchedPixelSet : Prop :=
  ∀ (s : State) (x y : Reg) (n : Nibble), (∀ c ∈ s.fb, c.2 = 1) → n = 0 ∨ s.i.toNat + n.toNat - 1 ≤ 0xFFF →
    ∃ t, exec (.drw x y n) s = .next t ∧
      ((∃ k ∈ s.touchedPixels x y n, Framebuffer.read s.fb k = 1 ∨ 2 ≤ (s.touchedPixels x y n).count k) →
        t.reg VF = 1) ∧
      ((∀ k ∈ s.touchedPixels x y n, Framebuffer.read s.fb k = 0 ∧ (s.touchedPixels x y n).count k = 1) →
        t.reg VF = 0)

/-- R182: with wrapSprites set, the pixels a draw touches are those of the set bits, each at
((Vx + column) mod W, (Vy + row) mod H), column 0 being bit 7 of the row's byte; every set bit is visible. Each pixel is touched
once for every set bit that lands on it, so two bits on one pixel count twice. -/
def Obligations.WrappedSpritePlacement : Prop :=
  ∀ (s : State) (x y : Reg) (n : Nibble), s.spec.quirks.wrapSprites = true →
    ∀ k, (s.touchedPixels x y n).count k =
      ((List.range n.toNat).map fun r => (List.range 8).countP fun c =>
        (s.readMem (s.i.toNat + r)).getLsbD (7 - c) &&
        decide (k = ((s.reg y).toNat + r) % s.spec.videoHeight * s.spec.videoWidth +
          ((s.reg x).toNat + c) % s.spec.videoWidth)).sum

/-- R183 as a section (decision D19): with wrapSprites clear, the origin is reduced once, and a bit past the right or bottom
edge touches nothing; every other set bit touches the pixel it lands on, once. -/
def Obligations.ClippedSpritePlacement : Prop :=
  ∀ (s : State) (x y : Reg) (n : Nibble), s.spec.quirks.wrapSprites = false →
    ∀ k, (s.touchedPixels x y n).count k =
      ((List.range n.toNat).map fun r => (List.range 8).countP fun c =>
        (s.readMem (s.i.toNat + r)).getLsbD (7 - c) &&
        decide ((s.reg x).toNat % s.spec.videoWidth + c < s.spec.videoWidth) &&
        decide ((s.reg y).toNat % s.spec.videoHeight + r < s.spec.videoHeight) &&
        decide (k = ((s.reg y).toNat % s.spec.videoHeight + r) * s.spec.videoWidth +
          ((s.reg x).toNat % s.spec.videoWidth + c))).sum

/-- 44_display.md section 2 (the XOR of R181 and R185; decision D20): the same sprite drawn twice at the same position gives
the screen back; on a blank screen, when no pixel is touched twice and some is touched, the first draw finds no collision
and the second does. -/
def Obligations.DrawTwiceRestoresTheScreen : Prop :=
  ∀ (s : State) (x y : Reg) (n : Nibble), n = 0 ∨ s.i.toNat + n.toNat - 1 ≤ 0xFFF →
    ∃ t u, exec (.drw x y n) s = .next t ∧ exec (.drw x y n) { t with v := s.v } = .next u ∧
      (∀ px py, u.pixel px py = s.pixel px py) ∧
      (s.fb = [] → (s.touchedPixels x y n).Nodup → s.touchedPixels x y n ≠ [] → t.reg VF = 0 ∧ u.reg VF = 1)

/-! ## Keypad and timers (45_keypad_timers.md) -/

/-- Ex9E and ExA1, R200 and R201 as sections (decision D13): PC moves by 4 when the key Vx is pressed, respectively not pressed,
and by 2 otherwise; with Vx above 15 the fault KEY_RANGE is taken. -/
def Obligations.KeySkips : Prop :=
  RowDecodes 0xE09E 0xF0FF (fun w => .skp (fieldX w)) ∧
  RowDecodes 0xE0A1 0xF0FF (fun w => .sknp (fieldX w)) ∧
  ∀ (s : State) (x : Reg),
    ((s.reg x).toNat ≤ 15 →
      (∃ t, exec (.skp x) s = .next t ∧ t.pc = (if s.key (s.reg x).toNat = true then s.pc + 4 else s.pc + 2) ∧
        Within {} s t) ∧
      (∃ t, exec (.sknp x) s = .next t ∧ t.pc = (if s.key (s.reg x).toNat = false then s.pc + 4 else s.pc + 2) ∧
        Within {} s t)) ∧
    (15 < (s.reg x).toNat →
      (∃ t op, exec (.skp x) s = .next t ∧ decodeWord op = .ok (.skp x) ∧ FaultTaken .keyRange (some op) s t) ∧
      (∃ t op, exec (.sknp x) s = .next t ∧ decodeWord op = .ok (.sknp x) ∧ FaultTaken .keyRange (some op) s t))

/-- Fx0A, R202 as a section (decisions D18, D22, D23 and D35 for the outputs and the tick of the step): the least pressed
key goes to Vx and PC advances; with no key pressed the instruction changes nothing, its step completes with PC unchanged,
the timers tick and TONE is set as for any executed step. -/
def Obligations.WaitForKeySpins : Prop :=
  RowDecodes 0xF00A 0xF0FF (fun w => .ldVxKey (fieldX w)) ∧
  ∀ (s : State) (x : Reg),
    (∀ k, k < 16 → s.key k = true → (∀ j, j < k → s.key j = false) →
      ∃ t, exec (.ldVxKey x) s = .next t ∧ (t.reg x).toNat = k ∧ t.pc = s.pc + 2 ∧ Within { regs := [x] } s t) ∧
    ((∀ k, k < 16 → s.key k = false) →
      exec (.ldVxKey x) s = .next s ∧
      (s.Executes → decodeWord s.fetchOp = .ok (.ldVxKey x) →
        ∃ t, step s = .next t ∧ t.pc = s.pc ∧ t.dt.toNat = s.dt.toNat - 1 ∧ t.st.toNat = s.st.toNat - 1 ∧
          t.tone = decide (0 < s.st.toNat) ∧ t.unk = false ∧ t.unkOp = s.unkOp ∧ t.draw = false ∧
          Within { dt := true, st := true, tone := true, report := true, draw := true } s t))

/-- Fx07, R203: Vx takes DT as it stood before the step's own tick, and after the step DT is one less, or 0. -/
def Obligations.ReadDelayTimer : Prop :=
  RowDecodes 0xF007 0xF0FF (fun w => .ldVxDt (fieldX w)) ∧
  (∀ (s : State) (x : Reg), ∃ t, exec (.ldVxDt x) s = .next t ∧ t.reg x = s.dt ∧ t.pc = s.pc + 2 ∧
    Within { regs := [x] } s t) ∧
  (∀ (s : State) (x : Reg), s.Executes → s.fetchOp &&& 0xF0FF = 0xF007 → x = fieldX s.fetchOp →
    ∃ t, step s = .next t ∧ t.reg x = s.dt ∧ t.dt.toNat = s.dt.toNat - 1)

/-- Fx15 and Fx18, R204 and R205 as sections (the value after the tick is marked derived there): DT, ST take Vx. -/
def Obligations.SetTimers : Prop :=
  RowDecodes 0xF015 0xF0FF (fun w => .ldDtVx (fieldX w)) ∧
  RowDecodes 0xF018 0xF0FF (fun w => .ldStVx (fieldX w)) ∧
  ∀ (s : State) (x : Reg),
    (∃ t, exec (.ldDtVx x) s = .next t ∧ t.dt = s.reg x ∧ t.pc = s.pc + 2 ∧ Within { dt := true } s t) ∧
    (∃ t, exec (.ldStVx x) s = .next t ∧ t.st = s.reg x ∧ t.pc = s.pc + 2 ∧ Within { st := true } s t)

/-! ## Load and reset (70_reset_and_hazards.md, 10_state.md) -/

/-- 70_reset_and_hazards.md section 1 and 10_state.md section 12 (decisions D3, D4, D5): a legal program, SPEC and FONT give a
state with FONT at 0, the program at 0x200, zeros elsewhere, PEND past the program, PC = 0x200, and everything else zero,
false or none. The count of random draws is the model's own (log entry 3). -/
def Obligations.LoadBuildsTheStartState : Prop :=
  ∀ (bytes : List Byte) (spec : PlatformSpec) (font : List Byte),
    bytes.length ≤ 3584 → 1 ≤ spec.videoWidth → 1 ≤ spec.videoHeight → 1 ≤ spec.glyphSize → spec.glyphSize ≤ 32 →
    font.length = 16 * spec.glyphSize →
    ∃ s, load bytes spec font = .ok s ∧
      (∀ a, a < 0x1000 → s.readMem a =
        if a < 0x200 then font.getD a 0 else bytes.getD (a - 0x200) 0) ∧
      s.pend.toNat = 0x200 + bytes.length ∧ s.pc = 0x200 ∧ s.spec = spec ∧
      (∀ r, s.reg r = 0) ∧ s.i = 0 ∧ s.sp = 0 ∧ (∀ k, s.stackAt k = 0) ∧ s.dt = 0 ∧ s.st = 0 ∧
      (∀ px py, s.pixel px py = 0) ∧ (∀ k, s.key k = false) ∧ s.faulted = false ∧ s.faultCause = none ∧ s.faultPc = 0 ∧
      s.faultOp = none ∧ s.tone = false ∧ s.unk = false ∧ s.unkOp = 0 ∧ s.draw = false

/-- 70_reset_and_hazards.md R252 as a section (decision D33): a program longer than 3584 bytes is refused with
LOAD_TOO_LARGE whatever the rest, and one of 3584 bytes is accepted up to memory's last byte. -/
def Obligations.OversizedProgramIsRefused : Prop :=
  (∀ bytes spec font, 3584 < bytes.length → load bytes spec font = .error .tooLarge) ∧
  (∀ bytes, bytes.length = 3584 →
    ∃ s, load bytes Config.referenceSpec Config.referenceFont = .ok s ∧ s.pend = 0x1000)

/-- 10_state.md section 12 and 00_scope.md section 3: the state after reset is the state `load` builds from the empty program
with the reference SPEC and FONT (that reset holds no program, tickRate and the FONT bytes are log entries 5, 2 and 1), and
the state `withFetchWord` gives is the one `load` builds from that word. -/
def Obligations.ResetIsTheEmptyLoad : Prop :=
  load [] Config.referenceSpec Config.referenceFont = .ok State.reset ∧
  ∀ w : Nat, w < 65536 →
    ∃ s, load [BitVec.ofNat 8 (w / 256), BitVec.ofNat 8 (w % 256)] Config.referenceSpec Config.referenceFont = .ok s ∧
      s = State.reset.withFetchWord 16 w

end
end

