-- ==== Sys2Proof/Laws/Decode.lean ====
section
/-! SUPPORT. The laws of the opcode fields: what each field of a packed word is, that packing the fields of a word gives the
word back, and what a mask of the opcode map says about the fields. -/

namespace Sys2Proof

/-! ## The fields of a packed word -/

@[simp] theorem fieldC_packXKK (c : Nibble) (x : Reg) (kk : Byte) : fieldC (packXKK c x kk) = c := by
  refine BitVec.eq_of_getLsbD_eq fun i hi => ?_
  simp only [fieldC, packXKK, BitVec.getLsbD_extractLsb', BitVec.getLsbD_append]
  interval_cases i <;> simp

@[simp] theorem fieldX_packXKK (c : Nibble) (x : Reg) (kk : Byte) : fieldX (packXKK c x kk) = x := by
  refine BitVec.eq_of_getLsbD_eq fun i hi => ?_
  simp only [fieldX, packXKK, BitVec.getLsbD_extractLsb', BitVec.getLsbD_append]
  interval_cases i <;> simp

@[simp] theorem fieldKK_packXKK (c : Nibble) (x : Reg) (kk : Byte) : fieldKK (packXKK c x kk) = kk := by
  refine BitVec.eq_of_getLsbD_eq fun i hi => ?_
  simp only [fieldKK, packXKK, BitVec.getLsbD_extractLsb', BitVec.getLsbD_append]
  interval_cases i <;> simp

@[simp] theorem fieldC_packXYN (c : Nibble) (x y : Reg) (n : Nibble) : fieldC (packXYN c x y n) = c := by
  refine BitVec.eq_of_getLsbD_eq fun i hi => ?_
  simp only [fieldC, packXYN, BitVec.getLsbD_extractLsb', BitVec.getLsbD_append]
  interval_cases i <;> simp

@[simp] theorem fieldX_packXYN (c : Nibble) (x y : Reg) (n : Nibble) : fieldX (packXYN c x y n) = x := by
  refine BitVec.eq_of_getLsbD_eq fun i hi => ?_
  simp only [fieldX, packXYN, BitVec.getLsbD_extractLsb', BitVec.getLsbD_append]
  interval_cases i <;> simp

@[simp] theorem fieldY_packXYN (c : Nibble) (x y : Reg) (n : Nibble) : fieldY (packXYN c x y n) = y := by
  refine BitVec.eq_of_getLsbD_eq fun i hi => ?_
  simp only [fieldY, packXYN, BitVec.getLsbD_extractLsb', BitVec.getLsbD_append]
  interval_cases i <;> simp

@[simp] theorem fieldN_packXYN (c : Nibble) (x y : Reg) (n : Nibble) : fieldN (packXYN c x y n) = n := by
  refine BitVec.eq_of_getLsbD_eq fun i hi => ?_
  simp only [fieldN, packXYN, BitVec.getLsbD_extractLsb', BitVec.getLsbD_append]
  interval_cases i <;> simp

@[simp] theorem fieldC_packNNN (c : Nibble) (nnn : Addr) : fieldC (packNNN c nnn) = c := by
  refine BitVec.eq_of_getLsbD_eq fun i hi => ?_
  simp only [fieldC, packNNN, BitVec.getLsbD_extractLsb', BitVec.getLsbD_append]
  interval_cases i <;> simp

@[simp] theorem fieldNNN_packNNN (c : Nibble) (nnn : Addr) : fieldNNN (packNNN c nnn) = nnn := by
  refine BitVec.eq_of_getLsbD_eq fun i hi => ?_
  simp only [fieldNNN, packNNN, BitVec.getLsbD_extractLsb', BitVec.getLsbD_append]
  interval_cases i <;> simp

/-! ## A word is its fields, packed -/

theorem packXKK_fields (op : Word) : packXKK (fieldC op) (fieldX op) (fieldKK op) = op := by
  refine BitVec.eq_of_getLsbD_eq fun i hi => ?_
  simp only [packXKK, fieldC, fieldX, fieldKK, BitVec.getLsbD_extractLsb', BitVec.getLsbD_append]
  interval_cases i <;> simp

theorem packXYN_fields (op : Word) : packXYN (fieldC op) (fieldX op) (fieldY op) (fieldN op) = op := by
  refine BitVec.eq_of_getLsbD_eq fun i hi => ?_
  simp only [packXYN, fieldC, fieldX, fieldY, fieldN, BitVec.getLsbD_extractLsb', BitVec.getLsbD_append]
  interval_cases i <;> simp

theorem packNNN_fields (op : Word) : packNNN (fieldC op) (fieldNNN op) = op := by
  refine BitVec.eq_of_getLsbD_eq fun i hi => ?_
  simp only [packNNN, fieldC, fieldNNN, BitVec.getLsbD_extractLsb', BitVec.getLsbD_append]
  interval_cases i <;> simp

@[simp] theorem wordOfBytes_highByte_lowByte (op : Word) : wordOfBytes (highByte op) (lowByte op) = op := by
  refine BitVec.eq_of_getLsbD_eq fun i hi => ?_
  simp only [wordOfBytes, highByte, lowByte, BitVec.getLsbD_extractLsb', BitVec.getLsbD_append]
  interval_cases i <;> simp

@[simp] theorem highByte_wordOfBytes (hi lo : Byte) : highByte (wordOfBytes hi lo) = hi := by
  refine BitVec.eq_of_getLsbD_eq fun i hi => ?_
  simp only [wordOfBytes, highByte, BitVec.getLsbD_extractLsb', BitVec.getLsbD_append]
  interval_cases i <;> simp

@[simp] theorem lowByte_wordOfBytes (hi lo : Byte) : lowByte (wordOfBytes hi lo) = lo := by
  refine BitVec.eq_of_getLsbD_eq fun i hi => ?_
  simp only [wordOfBytes, lowByte, BitVec.getLsbD_extractLsb', BitVec.getLsbD_append]
  interval_cases i <;> simp

/-! ## What a mask says about the fields -/

theorem fieldC_and (op m : Word) : fieldC (op &&& m) = fieldC op &&& fieldC m := BitVec.extractLsb'_and
theorem fieldN_and (op m : Word) : fieldN (op &&& m) = fieldN op &&& fieldN m := BitVec.extractLsb'_and
theorem fieldX_and (op m : Word) : fieldX (op &&& m) = fieldX op &&& fieldX m := BitVec.extractLsb'_and
theorem fieldY_and (op m : Word) : fieldY (op &&& m) = fieldY op &&& fieldY m := BitVec.extractLsb'_and
theorem fieldKK_and (op m : Word) : fieldKK (op &&& m) = fieldKK op &&& fieldKK m := BitVec.extractLsb'_and

/-- Every mask of the map keeps c. -/
theorem fieldC_of_mask {op m p : Word} (h : op &&& m = p) (hm : fieldC m = BitVec.allOnes 4) : fieldC op = fieldC p := by
  rw [← h, fieldC_and, hm, BitVec.and_allOnes]

/-- A mask that keeps n. -/
theorem fieldN_of_mask {op m p : Word} (h : op &&& m = p) (hm : fieldN m = BitVec.allOnes 4) : fieldN op = fieldN p := by
  rw [← h, fieldN_and, hm, BitVec.and_allOnes]

/-- A mask that keeps nn. -/
theorem fieldKK_of_mask {op m p : Word} (h : op &&& m = p) (hm : fieldKK m = BitVec.allOnes 8) :
    fieldKK op = fieldKK p := by
  rw [← h, fieldKK_and, hm, BitVec.and_allOnes]

theorem mask_F000_iff (op p : Word) (hp : p = packNNN (fieldC p) 0) : op &&& 0xF000 = p ↔ fieldC op = fieldC p := by
  constructor
  · exact fun h => fieldC_of_mask h rfl
  · intro h
    rw [hp, ← h]
    refine BitVec.eq_of_getLsbD_eq fun i hi => ?_
    simp only [packNNN, fieldC, BitVec.getLsbD_and, BitVec.getLsbD_extractLsb', BitVec.getLsbD_append]
    interval_cases i <;> simp

theorem mask_F00F_iff (op p : Word) (hp : p = packXYN (fieldC p) 0 0 (fieldN p)) :
    op &&& 0xF00F = p ↔ fieldC op = fieldC p ∧ fieldN op = fieldN p := by
  constructor
  · exact fun h => ⟨fieldC_of_mask h rfl, fieldN_of_mask h rfl⟩
  · rintro ⟨h1, h2⟩
    rw [hp, ← h1, ← h2]
    refine BitVec.eq_of_getLsbD_eq fun i hi => ?_
    simp only [packXYN, fieldC, fieldN, BitVec.getLsbD_and, BitVec.getLsbD_extractLsb', BitVec.getLsbD_append]
    interval_cases i <;> simp

theorem mask_F0FF_iff (op p : Word) (hp : p = packXKK (fieldC p) 0 (fieldKK p)) :
    op &&& 0xF0FF = p ↔ fieldC op = fieldC p ∧ fieldKK op = fieldKK p := by
  constructor
  · exact fun h => ⟨fieldC_of_mask h rfl, fieldKK_of_mask h rfl⟩
  · rintro ⟨h1, h2⟩
    rw [hp, ← h1, ← h2]
    refine BitVec.eq_of_getLsbD_eq fun i hi => ?_
    simp only [packXKK, fieldC, fieldKK, BitVec.getLsbD_and, BitVec.getLsbD_extractLsb', BitVec.getLsbD_append]
    interval_cases i <;> simp

theorem mask_FFFF_iff (op p : Word) : op &&& 0xFFFF = p ↔ op = p := by
  rw [show (0xFFFF : Word) = BitVec.allOnes 16 from rfl, BitVec.and_allOnes]

/-- The bytes of an instruction are the word's, and decoding them is decoding the word. -/
theorem decodeBytes_cons (hi lo : Byte) (rest : List Byte) :
    decodeBytes (hi :: lo :: rest) =
      match decodeWord (wordOfBytes hi lo) with
      | .ok i => .ok (i, rest)
      | .error e => .error e := rfl

end Sys2Proof
end

