-- ==== Sys2Proof/Laws/Memory.lean ====
section
/-! SUPPORT. The laws of the sparse byte stores: read after write, the canonical form is kept, and equal reads of canonical
stores are equal data. -/

namespace Sys2Proof.Machine

variable {base : Nat → Byte}

theorem Cells.read_erase (m : Cells) (a x : Nat) :
    Cells.read base (Cells.erase m a) x = if x = a then base x else Cells.read base m x := by
  induction m with
  | nil => simp [Cells.erase, Cells.read]
  | cons c rest ih =>
    obtain ⟨k, b⟩ := c
    by_cases hk : k = a
    · subst hk
      by_cases hx : x = k
      · subst hx; simp [Cells.erase, ih]
      · simp [Cells.erase, Cells.read, ih, hx, Ne.symm hx]
    · by_cases hx : x = a
      · subst hx; simp [Cells.erase, Cells.read, ih, hk]
      · simp [Cells.erase, Cells.read, ih, hk, hx]

theorem Cells.read_insert (m : Cells) (a : Nat) (b : Byte) (x : Nat) (h : ∀ c ∈ m, c.1 ≠ a) :
    Cells.read base (Cells.insert m a b) x = if x = a then b else Cells.read base m x := by
  induction m with
  | nil => simp [Cells.insert, Cells.read, eq_comm]
  | cons c rest ih =>
    obtain ⟨k, d⟩ := c
    have hk : k ≠ a := h (k, d) (by simp)
    have ih := ih fun c hc => h c (by simp [hc])
    by_cases hlt : a < k
    · simp [Cells.insert, hlt, Cells.read, eq_comm]
    · by_cases hx : x = a
      · subst hx; simp [Cells.insert, hlt, Cells.read, ih, hk]
      · simp [Cells.insert, hlt, Cells.read, ih, hx]

theorem Cells.mem_erase {m : Cells} {a : Nat} {c : Host.Cell} : c ∈ Cells.erase m a ↔ c ∈ m ∧ c.1 ≠ a := by
  induction m with
  | nil => simp [Cells.erase]
  | cons d rest ih =>
    obtain ⟨k, b⟩ := d
    by_cases hk : k = a
    · simp only [Cells.erase, hk, if_true, ih, List.mem_cons]
      constructor
      · exact fun h => ⟨.inr h.1, h.2⟩
      · rintro ⟨rfl | h, h2⟩
        · exact absurd rfl h2
        · exact ⟨h, h2⟩
    · simp only [Cells.erase, hk, if_false, ih, List.mem_cons]
      constructor
      · rintro (rfl | h)
        · exact ⟨.inl rfl, hk⟩
        · exact ⟨.inr h.1, h.2⟩
      · rintro ⟨rfl | h, h2⟩
        · exact .inl rfl
        · exact .inr ⟨h, h2⟩

theorem Cells.mem_insert {m : Cells} {a : Nat} {b : Byte} {c : Host.Cell} :
    c ∈ Cells.insert m a b ↔ c = (a, b) ∨ c ∈ m := by
  induction m with
  | nil => simp [Cells.insert]
  | cons d rest ih =>
    obtain ⟨k, e⟩ := d
    by_cases hlt : a < k
    · simp [Cells.insert, hlt]
    · simp [Cells.insert, hlt, ih, or_left_comm]

/-- Read after write: the byte written at its address, every other address as before. -/
theorem Cells.read_write (m : Cells) (a : Nat) (b : Byte) (x : Nat) :
    Cells.read base (Cells.write base m a b) x = if x = a then b else Cells.read base m x := by
  unfold Cells.write
  split
  · rename_i hb
    rw [Cells.read_erase]
    by_cases hx : x = a
    · simp [hx, hb]
    · simp [hx]
  · rw [Cells.read_insert _ _ _ _ fun c hc => (Cells.mem_erase.mp hc).2, Cells.read_erase]
    by_cases hx : x = a <;> simp [hx]

/-- A listed cell after a write is the cell written or an earlier one. -/
theorem Cells.mem_write {m : Cells} {a : Nat} {b : Byte} {c : Host.Cell} (h : c ∈ Cells.write base m a b) :
    (c = (a, b) ∧ b ≠ base a) ∨ c ∈ m := by
  unfold Cells.write at h
  split at h
  · exact .inr (Cells.mem_erase.mp h).1
  · rename_i hb
    rcases Cells.mem_insert.mp h with rfl | h
    · exact .inl ⟨rfl, hb⟩
    · exact .inr (Cells.mem_erase.mp h).1

theorem Cells.wfFrom_mono {lo lo' : Nat} {m : Cells} (h : Cells.wfFrom base lo m = true) (hl : lo' ≤ lo) :
    Cells.wfFrom base lo' m = true := by
  cases m with
  | nil => rfl
  | cons c rest =>
    simp only [Cells.wfFrom, Bool.and_eq_true, decide_eq_true_eq] at h ⊢
    exact ⟨⟨hl.trans h.1.1, h.1.2⟩, h.2⟩

theorem Cells.wfFrom_le {lo : Nat} {m : Cells} (h : Cells.wfFrom base lo m = true) {c : Host.Cell} (hc : c ∈ m) :
    lo ≤ c.1 ∧ c.2 ≠ base c.1 := by
  induction m generalizing lo with
  | nil => simp at hc
  | cons d rest ih =>
    simp only [Cells.wfFrom, Bool.and_eq_true, decide_eq_true_eq] at h
    rcases List.mem_cons.mp hc with rfl | hc
    · exact h.1
    · exact ⟨by have := (ih h.2 hc).1; omega, (ih h.2 hc).2⟩

theorem Cells.erase_wfFrom {lo : Nat} {m : Cells} (a : Nat) (h : Cells.wfFrom base lo m = true) :
    Cells.wfFrom base lo (Cells.erase m a) = true := by
  induction m generalizing lo with
  | nil => rfl
  | cons c rest ih =>
    obtain ⟨k, b⟩ := c
    simp only [Cells.wfFrom, Bool.and_eq_true, decide_eq_true_eq] at h
    by_cases hk : k = a
    · simp only [Cells.erase, hk, if_true]
      exact Cells.wfFrom_mono (ih h.2) (by omega)
    · simp only [Cells.erase, hk, if_false, Cells.wfFrom, Bool.and_eq_true, decide_eq_true_eq]
      exact ⟨h.1, ih h.2⟩

theorem Cells.insert_wfFrom {lo : Nat} {m : Cells} {a : Nat} {b : Byte} (h : Cells.wfFrom base lo m = true)
    (ha : lo ≤ a) (hb : b ≠ base a) (hn : ∀ c ∈ m, c.1 ≠ a) : Cells.wfFrom base lo (Cells.insert m a b) = true := by
  induction m generalizing lo with
  | nil => simp [Cells.insert, Cells.wfFrom, ha, hb]
  | cons c rest ih =>
    obtain ⟨k, d⟩ := c
    have hk : k ≠ a := hn (k, d) (by simp)
    simp only [Cells.wfFrom, Bool.and_eq_true, decide_eq_true_eq] at h
    by_cases hlt : a < k
    · simp only [Cells.insert, hlt, if_true, Cells.wfFrom, Bool.and_eq_true, decide_eq_true_eq]
      exact ⟨⟨ha, hb⟩, ⟨by omega, h.1.2⟩, h.2⟩
    · simp only [Cells.insert, hlt, if_false, Cells.wfFrom, Bool.and_eq_true, decide_eq_true_eq]
      exact ⟨h.1, ih h.2 (by omega) fun c hc => hn c (by simp [hc])⟩

/-- A write keeps the canonical form. -/
theorem Cells.write_wf {m : Cells} (a : Nat) (b : Byte) (h : Cells.wfFrom base 0 m = true) :
    Cells.wfFrom base 0 (Cells.write base m a b) = true := by
  unfold Cells.write
  split
  · exact Cells.erase_wfFrom a h
  · exact Cells.insert_wfFrom (Cells.erase_wfFrom a h) (by omega) ‹_› fun c hc => (Cells.mem_erase.mp hc).2

theorem Cells.writeBytes_wf {m : Cells} (a : Nat) (bs : List Byte) (h : Cells.wfFrom base 0 m = true) :
    Cells.wfFrom base 0 (Cells.writeBytes base m a bs) = true := by
  induction bs generalizing m a with
  | nil => exact h
  | cons b rest ih => exact ih (a + 1) (Cells.write_wf a b h)

/-- Bytes written from `a` on read back in their order, and every other address reads as before. -/
theorem Cells.read_writeBytes (m : Cells) (a : Nat) (bs : List Byte) (x : Nat) :
    Cells.read base (Cells.writeBytes base m a bs) x =
      if h : a ≤ x ∧ x < a + bs.length then bs[x - a]'(by omega) else Cells.read base m x := by
  induction bs generalizing m a with
  | nil =>
    simp [Cells.writeBytes]
  | cons b rest ih =>
    simp only [Cells.writeBytes, ih, Cells.read_write, List.length_cons]
    by_cases h1 : x = a
    · subst h1
      simp
    · by_cases h2 : a + 1 ≤ x ∧ x < a + 1 + rest.length
      · have h3 : a ≤ x ∧ x < a + (rest.length + 1) := by omega
        have h4 : x - a = (x - (a + 1)) + 1 := by omega
        simp only [h2, h3, dif_pos, and_self]
        simp only [h4, List.getElem_cons_succ]
      · have h3 : ¬ (a ≤ x ∧ x < a + (rest.length + 1)) := by omega
        rw [dif_neg h2, dif_neg h3, if_neg h1]

/-- A cell listed after writing bytes lies at a written address or was listed before. -/
theorem Cells.mem_writeBytes {m : Cells} {a : Nat} {bs : List Byte} {c : Host.Cell}
    (h : c ∈ Cells.writeBytes base m a bs) : (a ≤ c.1 ∧ c.1 < a + bs.length) ∨ c ∈ m := by
  induction bs generalizing m a with
  | nil => exact .inr h
  | cons b rest ih =>
    simp only [List.length_cons]
    rcases ih h with h | h
    · exact .inl (by omega)
    · rcases Cells.mem_write h with ⟨rfl, -⟩ | h
      · exact .inl (by simp)
      · exact .inr h

theorem Cells.length_readBytes (m : Cells) (a n : Nat) : (Cells.readBytes base m a n).length = n := by
  induction n generalizing a with
  | zero => rfl
  | succ n ih => simp [Cells.readBytes, ih]

theorem Cells.getElem_readBytes (m : Cells) (a n k : Nat) (h : k < (Cells.readBytes base m a n).length) :
    (Cells.readBytes base m a n)[k] = Cells.read base m (a + k) := by
  induction n generalizing a k with
  | zero => simp [Cells.readBytes] at h
  | succ n ih =>
    cases k with
    | zero => simp [Cells.readBytes]
    | succ k =>
      simp only [Cells.readBytes, List.getElem_cons_succ]
      rw [ih]
      congr 1
      omega

theorem Cells.read_of_lt {lo : Nat} {m : Cells} (h : Cells.wfFrom base lo m = true) {a : Nat} (ha : a < lo) :
    Cells.read base m a = base a := by
  induction m generalizing lo with
  | nil => rfl
  | cons c rest ih =>
    obtain ⟨k, b⟩ := c
    simp only [Cells.wfFrom, Bool.and_eq_true, decide_eq_true_eq] at h
    have hk : k ≠ a := by omega
    simp only [Cells.read, hk, if_false]
    exact ih h.2 (by omega)

/-- Two canonical stores that read alike are the same list. -/
theorem Cells.ext_of_read {lo lo' : Nat} {m m' : Cells} (h : Cells.wfFrom base lo m = true)
    (h' : Cells.wfFrom base lo' m' = true) (hr : ∀ a, Cells.read base m a = Cells.read base m' a) : m = m' := by
  induction m generalizing lo lo' m' with
  | nil =>
    cases m' with
    | nil => rfl
    | cons c rest =>
      have := (Cells.wfFrom_le h' (c := c) (by simp)).2
      exact absurd (hr c.1).symm (by simpa [Cells.read] using this)
  | cons c rest ih =>
    obtain ⟨k, b⟩ := c
    have hb := (Cells.wfFrom_le h (c := (k, b)) (by simp)).2
    cases m' with
    | nil => exact absurd (hr k) (by simpa [Cells.read] using hb)
    | cons c' rest' =>
      obtain ⟨k', b'⟩ := c'
      have hb' := (Cells.wfFrom_le h' (c := (k', b')) (by simp)).2
      simp only [Cells.wfFrom, Bool.and_eq_true, decide_eq_true_eq] at h h'
      have hkk : k = k' := by
        rcases Nat.lt_trichotomy k k' with hlt | heq | hlt
        · have h1 := hr k
          simp only [Cells.read, if_true, show k' ≠ k by omega, if_false] at h1
          rw [Cells.read_of_lt h'.2 (by omega)] at h1
          exact absurd h1 hb
        · exact heq
        · have h1 := hr k'
          simp only [Cells.read, if_true, show k ≠ k' by omega, if_false] at h1
          rw [Cells.read_of_lt h.2 (by omega)] at h1
          exact absurd h1.symm hb'
      subst hkk
      have hbb : b = b' := by simpa [Cells.read] using hr k
      subst hbb
      have hrest : rest = rest' := by
        refine ih h.2 h'.2 fun a => ?_
        by_cases ha : a < k + 1
        · rw [Cells.read_of_lt h.2 ha, Cells.read_of_lt h'.2 ha]
        · simpa [Cells.read, show k ≠ a by omega] using hr a
      rw [hrest]

/-! ## MEM and FB -/

theorem Memory.read_writeBytes (m : Memory) (a : Nat) (bs : List Byte) (x : Nat) :
    Memory.read (Memory.writeBytes m a bs) x =
      if h : a ≤ x ∧ x < a + bs.length then bs[x - a]'(by omega) else Memory.read m x :=
  Cells.read_writeBytes m a bs x

theorem Memory.read_write (m : Memory) (a : Nat) (b : Byte) (x : Nat) :
    Memory.read (Memory.write m a b) x = if x = a then b else Memory.read m x :=
  Cells.read_write m a b x

theorem Memory.write_wf {m : Memory} (a : Nat) (b : Byte) (h : Memory.wf m = true) :
    Memory.wf (Memory.write m a b) = true :=
  Cells.write_wf a b h

theorem Memory.writeBytes_wf {m : Memory} (a : Nat) (bs : List Byte) (h : Memory.wf m = true) :
    Memory.wf (Memory.writeBytes m a bs) = true :=
  Cells.writeBytes_wf a bs h

theorem Memory.reset_wf : Memory.wf State.reset.mem = true := rfl

theorem Memory.length_readBytes (m : Memory) (a n : Nat) : (Memory.readBytes m a n).length = n :=
  Cells.length_readBytes m a n

theorem Memory.getElem_readBytes (m : Memory) (a n k : Nat) (h : k < (Memory.readBytes m a n).length) :
    (Memory.readBytes m a n)[k] = Memory.read m (a + k) :=
  Cells.getElem_readBytes m a n k h

theorem Memory.readBytes_congr {m m' : Memory} {a n : Nat} (h : ∀ k, k < n → Memory.read m (a + k) = Memory.read m' (a + k)) :
    Memory.readBytes m a n = Memory.readBytes m' a n := by
  refine List.ext_getElem (by simp only [Memory.length_readBytes]) fun k h1 h2 => ?_
  rw [Memory.getElem_readBytes, Memory.getElem_readBytes]
  exact h k (by simpa only [Memory.length_readBytes] using h1)

theorem Memory.ext_of_read {m m' : Memory} (h : Memory.wf m = true) (h' : Memory.wf m' = true)
    (hr : ∀ a, Memory.read m a = Memory.read m' a) : m = m' :=
  Cells.ext_of_read h h' hr

theorem Framebuffer.read_write (fb : Framebuffer) (k : Nat) (b : Byte) (x : Nat) :
    Framebuffer.read (Framebuffer.write fb k b) x = if x = k then b else Framebuffer.read fb x :=
  Cells.read_write fb k b x

theorem Framebuffer.write_wf {fb : Framebuffer} (k : Nat) (b : Byte) (h : Framebuffer.wf fb = true) :
    Framebuffer.wf (Framebuffer.write fb k b) = true :=
  Cells.write_wf k b h

theorem Framebuffer.read_nil (k : Nat) : Framebuffer.read [] k = 0 := rfl

theorem Framebuffer.ext_of_read {fb fb' : Framebuffer} (h : Framebuffer.wf fb = true) (h' : Framebuffer.wf fb' = true)
    (hr : ∀ k, Framebuffer.read fb k = Framebuffer.read fb' k) : fb = fb' :=
  Cells.ext_of_read h h' hr

/-- Where every listed pixel is 1, every pixel reads 0 or 1. -/
theorem Framebuffer.read_bit {fb : Framebuffer} (h : ∀ c ∈ fb, c.2 = 1) (k : Nat) :
    Framebuffer.read fb k = 0 ∨ Framebuffer.read fb k = 1 := by
  unfold Framebuffer.read
  induction fb with
  | nil => exact .inl rfl
  | cons c rest ih =>
    obtain ⟨j, b⟩ := c
    by_cases hj : j = k
    · exact .inr (by simpa [Cells.read, hj] using h (j, b) (by simp))
    · simpa [Cells.read, hj] using ih fun c hc => h c (by simp [hc])

end Sys2Proof.Machine
end

