-- ==== Sys2Proof/Laws/State.lean ====
section
/-! SUPPORT. What each update of the state leaves unchanged, one lemma per update (its conjuncts are simp's rewrite rules,
one per field and one per way of reading it), and what each update writes. -/

namespace Sys2Proof.Machine

@[simp] theorem State.setReg_keeps (s : State) (x : Reg) (b : Byte) :
    (s.setReg x b).i = s.i ∧ (s.setReg x b).pc = s.pc ∧ (s.setReg x b).sp = s.sp ∧ (s.setReg x b).stack = s.stack ∧
    (∀ k, (s.setReg x b).stackAt k = s.stackAt k) ∧ (s.setReg x b).dt = s.dt ∧ (s.setReg x b).st = s.st ∧
    (s.setReg x b).fb = s.fb ∧ (∀ px py, (s.setReg x b).pixel px py = s.pixel px py) ∧ (s.setReg x b).keys = s.keys ∧
    (∀ k, (s.setReg x b).key k = s.key k) ∧ (s.setReg x b).mem = s.mem ∧
    (∀ z, (s.setReg x b).readMem z = s.readMem z) ∧ (s.setReg x b).pend = s.pend ∧
    (s.setReg x b).faulted = s.faulted ∧ (s.setReg x b).faultCause = s.faultCause ∧
    (s.setReg x b).faultPc = s.faultPc ∧ (s.setReg x b).faultOp = s.faultOp ∧ (s.setReg x b).tone = s.tone ∧
    (s.setReg x b).unk = s.unk ∧ (s.setReg x b).unkOp = s.unkOp ∧ (s.setReg x b).draw = s.draw ∧
    (s.setReg x b).spec = s.spec ∧ (s.setReg x b).rndDraws = s.rndDraws := by
  and_intros <;> intros <;> rfl

@[simp] theorem State.setRegAndFlag_keeps (s : State) (x : Reg) (b f : Byte) :
    (s.setRegAndFlag x b f).i = s.i ∧ (s.setRegAndFlag x b f).pc = s.pc ∧ (s.setRegAndFlag x b f).sp = s.sp ∧
    (s.setRegAndFlag x b f).stack = s.stack ∧ (∀ k, (s.setRegAndFlag x b f).stackAt k = s.stackAt k) ∧
    (s.setRegAndFlag x b f).dt = s.dt ∧ (s.setRegAndFlag x b f).st = s.st ∧ (s.setRegAndFlag x b f).fb = s.fb ∧
    (∀ px py, (s.setRegAndFlag x b f).pixel px py = s.pixel px py) ∧ (s.setRegAndFlag x b f).keys = s.keys ∧
    (∀ k, (s.setRegAndFlag x b f).key k = s.key k) ∧ (s.setRegAndFlag x b f).mem = s.mem ∧
    (∀ z, (s.setRegAndFlag x b f).readMem z = s.readMem z) ∧ (s.setRegAndFlag x b f).pend = s.pend ∧
    (s.setRegAndFlag x b f).faulted = s.faulted ∧ (s.setRegAndFlag x b f).faultCause = s.faultCause ∧
    (s.setRegAndFlag x b f).faultPc = s.faultPc ∧ (s.setRegAndFlag x b f).faultOp = s.faultOp ∧
    (s.setRegAndFlag x b f).tone = s.tone ∧ (s.setRegAndFlag x b f).unk = s.unk ∧
    (s.setRegAndFlag x b f).unkOp = s.unkOp ∧ (s.setRegAndFlag x b f).draw = s.draw ∧
    (s.setRegAndFlag x b f).spec = s.spec ∧ (s.setRegAndFlag x b f).rndDraws = s.rndDraws := by
  and_intros <;> intros <;> rfl

@[simp] theorem State.setIndex_keeps (s : State) (w : Word) :
    (s.setIndex w).v = s.v ∧ (∀ y, (s.setIndex w).reg y = s.reg y) ∧ (s.setIndex w).pc = s.pc ∧
    (s.setIndex w).sp = s.sp ∧ (s.setIndex w).stack = s.stack ∧ (∀ k, (s.setIndex w).stackAt k = s.stackAt k) ∧
    (s.setIndex w).dt = s.dt ∧ (s.setIndex w).st = s.st ∧ (s.setIndex w).fb = s.fb ∧
    (∀ px py, (s.setIndex w).pixel px py = s.pixel px py) ∧ (s.setIndex w).keys = s.keys ∧
    (∀ k, (s.setIndex w).key k = s.key k) ∧ (s.setIndex w).mem = s.mem ∧
    (∀ z, (s.setIndex w).readMem z = s.readMem z) ∧ (s.setIndex w).pend = s.pend ∧
    (s.setIndex w).faulted = s.faulted ∧ (s.setIndex w).faultCause = s.faultCause ∧
    (s.setIndex w).faultPc = s.faultPc ∧ (s.setIndex w).faultOp = s.faultOp ∧ (s.setIndex w).tone = s.tone ∧
    (s.setIndex w).unk = s.unk ∧ (s.setIndex w).unkOp = s.unkOp ∧ (s.setIndex w).draw = s.draw ∧
    (s.setIndex w).spec = s.spec ∧ (s.setIndex w).rndDraws = s.rndDraws := by
  and_intros <;> intros <;> rfl

@[simp] theorem State.setPc_keeps (s : State) (w : Word) :
    (s.setPc w).v = s.v ∧ (∀ y, (s.setPc w).reg y = s.reg y) ∧ (s.setPc w).i = s.i ∧ (s.setPc w).sp = s.sp ∧
    (s.setPc w).stack = s.stack ∧ (∀ k, (s.setPc w).stackAt k = s.stackAt k) ∧ (s.setPc w).dt = s.dt ∧
    (s.setPc w).st = s.st ∧ (s.setPc w).fb = s.fb ∧ (∀ px py, (s.setPc w).pixel px py = s.pixel px py) ∧
    (s.setPc w).keys = s.keys ∧ (∀ k, (s.setPc w).key k = s.key k) ∧ (s.setPc w).mem = s.mem ∧
    (∀ z, (s.setPc w).readMem z = s.readMem z) ∧ (s.setPc w).pend = s.pend ∧ (s.setPc w).faulted = s.faulted ∧
    (s.setPc w).faultCause = s.faultCause ∧ (s.setPc w).faultPc = s.faultPc ∧ (s.setPc w).faultOp = s.faultOp ∧
    (s.setPc w).tone = s.tone ∧ (s.setPc w).unk = s.unk ∧ (s.setPc w).unkOp = s.unkOp ∧ (s.setPc w).draw = s.draw ∧
    (s.setPc w).spec = s.spec ∧ (s.setPc w).rndDraws = s.rndDraws := by
  and_intros <;> intros <;> rfl

@[simp] theorem State.advance_keeps (s : State) :
    (s.advance).v = s.v ∧ (∀ y, (s.advance).reg y = s.reg y) ∧ (s.advance).i = s.i ∧ (s.advance).sp = s.sp ∧
    (s.advance).stack = s.stack ∧ (∀ k, (s.advance).stackAt k = s.stackAt k) ∧ (s.advance).dt = s.dt ∧
    (s.advance).st = s.st ∧ (s.advance).fb = s.fb ∧ (∀ px py, (s.advance).pixel px py = s.pixel px py) ∧
    (s.advance).keys = s.keys ∧ (∀ k, (s.advance).key k = s.key k) ∧ (s.advance).mem = s.mem ∧
    (∀ z, (s.advance).readMem z = s.readMem z) ∧ (s.advance).pend = s.pend ∧ (s.advance).faulted = s.faulted ∧
    (s.advance).faultCause = s.faultCause ∧ (s.advance).faultPc = s.faultPc ∧ (s.advance).faultOp = s.faultOp ∧
    (s.advance).tone = s.tone ∧ (s.advance).unk = s.unk ∧ (s.advance).unkOp = s.unkOp ∧ (s.advance).draw = s.draw ∧
    (s.advance).spec = s.spec ∧ (s.advance).rndDraws = s.rndDraws := by
  and_intros <;> intros <;> rfl

@[simp] theorem State.skipIf_keeps (s : State) (c : Bool) :
    (s.skipIf c).v = s.v ∧ (∀ y, (s.skipIf c).reg y = s.reg y) ∧ (s.skipIf c).i = s.i ∧ (s.skipIf c).sp = s.sp ∧
    (s.skipIf c).stack = s.stack ∧ (∀ k, (s.skipIf c).stackAt k = s.stackAt k) ∧ (s.skipIf c).dt = s.dt ∧
    (s.skipIf c).st = s.st ∧ (s.skipIf c).fb = s.fb ∧ (∀ px py, (s.skipIf c).pixel px py = s.pixel px py) ∧
    (s.skipIf c).keys = s.keys ∧ (∀ k, (s.skipIf c).key k = s.key k) ∧ (s.skipIf c).mem = s.mem ∧
    (∀ z, (s.skipIf c).readMem z = s.readMem z) ∧ (s.skipIf c).pend = s.pend ∧ (s.skipIf c).faulted = s.faulted ∧
    (s.skipIf c).faultCause = s.faultCause ∧ (s.skipIf c).faultPc = s.faultPc ∧ (s.skipIf c).faultOp = s.faultOp ∧
    (s.skipIf c).tone = s.tone ∧ (s.skipIf c).unk = s.unk ∧ (s.skipIf c).unkOp = s.unkOp ∧
    (s.skipIf c).draw = s.draw ∧ (s.skipIf c).spec = s.spec ∧ (s.skipIf c).rndDraws = s.rndDraws := by
  unfold State.skipIf
  split <;> and_intros <;> intros <;> rfl

@[simp] theorem State.setDelay_keeps (s : State) (b : Byte) :
    (s.setDelay b).v = s.v ∧ (∀ y, (s.setDelay b).reg y = s.reg y) ∧ (s.setDelay b).i = s.i ∧
    (s.setDelay b).pc = s.pc ∧ (s.setDelay b).sp = s.sp ∧ (s.setDelay b).stack = s.stack ∧
    (∀ k, (s.setDelay b).stackAt k = s.stackAt k) ∧ (s.setDelay b).st = s.st ∧ (s.setDelay b).fb = s.fb ∧
    (∀ px py, (s.setDelay b).pixel px py = s.pixel px py) ∧ (s.setDelay b).keys = s.keys ∧
    (∀ k, (s.setDelay b).key k = s.key k) ∧ (s.setDelay b).mem = s.mem ∧
    (∀ z, (s.setDelay b).readMem z = s.readMem z) ∧ (s.setDelay b).pend = s.pend ∧
    (s.setDelay b).faulted = s.faulted ∧ (s.setDelay b).faultCause = s.faultCause ∧
    (s.setDelay b).faultPc = s.faultPc ∧ (s.setDelay b).faultOp = s.faultOp ∧ (s.setDelay b).tone = s.tone ∧
    (s.setDelay b).unk = s.unk ∧ (s.setDelay b).unkOp = s.unkOp ∧ (s.setDelay b).draw = s.draw ∧
    (s.setDelay b).spec = s.spec ∧ (s.setDelay b).rndDraws = s.rndDraws := by
  and_intros <;> intros <;> rfl

@[simp] theorem State.setSound_keeps (s : State) (b : Byte) :
    (s.setSound b).v = s.v ∧ (∀ y, (s.setSound b).reg y = s.reg y) ∧ (s.setSound b).i = s.i ∧
    (s.setSound b).pc = s.pc ∧ (s.setSound b).sp = s.sp ∧ (s.setSound b).stack = s.stack ∧
    (∀ k, (s.setSound b).stackAt k = s.stackAt k) ∧ (s.setSound b).dt = s.dt ∧ (s.setSound b).fb = s.fb ∧
    (∀ px py, (s.setSound b).pixel px py = s.pixel px py) ∧ (s.setSound b).keys = s.keys ∧
    (∀ k, (s.setSound b).key k = s.key k) ∧ (s.setSound b).mem = s.mem ∧
    (∀ z, (s.setSound b).readMem z = s.readMem z) ∧ (s.setSound b).pend = s.pend ∧
    (s.setSound b).faulted = s.faulted ∧ (s.setSound b).faultCause = s.faultCause ∧
    (s.setSound b).faultPc = s.faultPc ∧ (s.setSound b).faultOp = s.faultOp ∧ (s.setSound b).tone = s.tone ∧
    (s.setSound b).unk = s.unk ∧ (s.setSound b).unkOp = s.unkOp ∧ (s.setSound b).draw = s.draw ∧
    (s.setSound b).spec = s.spec ∧ (s.setSound b).rndDraws = s.rndDraws := by
  and_intros <;> intros <;> rfl

@[simp] theorem State.push_keeps (s : State) (w : Word) :
    (s.push w).v = s.v ∧ (∀ y, (s.push w).reg y = s.reg y) ∧ (s.push w).i = s.i ∧ (s.push w).pc = s.pc ∧
    (s.push w).dt = s.dt ∧ (s.push w).st = s.st ∧ (s.push w).fb = s.fb ∧
    (∀ px py, (s.push w).pixel px py = s.pixel px py) ∧ (s.push w).keys = s.keys ∧
    (∀ k, (s.push w).key k = s.key k) ∧ (s.push w).mem = s.mem ∧ (∀ z, (s.push w).readMem z = s.readMem z) ∧
    (s.push w).pend = s.pend ∧ (s.push w).faulted = s.faulted ∧ (s.push w).faultCause = s.faultCause ∧
    (s.push w).faultPc = s.faultPc ∧ (s.push w).faultOp = s.faultOp ∧ (s.push w).tone = s.tone ∧
    (s.push w).unk = s.unk ∧ (s.push w).unkOp = s.unkOp ∧ (s.push w).draw = s.draw ∧ (s.push w).spec = s.spec ∧
    (s.push w).rndDraws = s.rndDraws := by
  and_intros <;> intros <;> rfl

@[simp] theorem State.popPc_keeps (s : State) :
    (s.popPc).v = s.v ∧ (∀ y, (s.popPc).reg y = s.reg y) ∧ (s.popPc).i = s.i ∧ (s.popPc).stack = s.stack ∧
    (∀ k, (s.popPc).stackAt k = s.stackAt k) ∧ (s.popPc).dt = s.dt ∧ (s.popPc).st = s.st ∧ (s.popPc).fb = s.fb ∧
    (∀ px py, (s.popPc).pixel px py = s.pixel px py) ∧ (s.popPc).keys = s.keys ∧ (∀ k, (s.popPc).key k = s.key k) ∧
    (s.popPc).mem = s.mem ∧ (∀ z, (s.popPc).readMem z = s.readMem z) ∧ (s.popPc).pend = s.pend ∧
    (s.popPc).faulted = s.faulted ∧ (s.popPc).faultCause = s.faultCause ∧ (s.popPc).faultPc = s.faultPc ∧
    (s.popPc).faultOp = s.faultOp ∧ (s.popPc).tone = s.tone ∧ (s.popPc).unk = s.unk ∧ (s.popPc).unkOp = s.unkOp ∧
    (s.popPc).draw = s.draw ∧ (s.popPc).spec = s.spec ∧ (s.popPc).rndDraws = s.rndDraws := by
  and_intros <;> intros <;> rfl

@[simp] theorem State.writeMem_keeps (s : State) (a : Nat) (bs : List Byte) :
    (s.writeMem a bs).v = s.v ∧ (∀ y, (s.writeMem a bs).reg y = s.reg y) ∧ (s.writeMem a bs).i = s.i ∧
    (s.writeMem a bs).pc = s.pc ∧ (s.writeMem a bs).sp = s.sp ∧ (s.writeMem a bs).stack = s.stack ∧
    (∀ k, (s.writeMem a bs).stackAt k = s.stackAt k) ∧ (s.writeMem a bs).dt = s.dt ∧ (s.writeMem a bs).st = s.st ∧
    (s.writeMem a bs).fb = s.fb ∧ (∀ px py, (s.writeMem a bs).pixel px py = s.pixel px py) ∧
    (s.writeMem a bs).keys = s.keys ∧ (∀ k, (s.writeMem a bs).key k = s.key k) ∧ (s.writeMem a bs).pend = s.pend ∧
    (s.writeMem a bs).faulted = s.faulted ∧ (s.writeMem a bs).faultCause = s.faultCause ∧
    (s.writeMem a bs).faultPc = s.faultPc ∧ (s.writeMem a bs).faultOp = s.faultOp ∧ (s.writeMem a bs).tone = s.tone ∧
    (s.writeMem a bs).unk = s.unk ∧ (s.writeMem a bs).unkOp = s.unkOp ∧ (s.writeMem a bs).draw = s.draw ∧
    (s.writeMem a bs).spec = s.spec ∧ (s.writeMem a bs).rndDraws = s.rndDraws := by
  and_intros <;> intros <;> rfl

@[simp] theorem State.loadRegsFrom_keeps (s : State) (x : Reg) (a : Nat) :
    (s.loadRegsFrom x a).i = s.i ∧ (s.loadRegsFrom x a).pc = s.pc ∧ (s.loadRegsFrom x a).sp = s.sp ∧
    (s.loadRegsFrom x a).stack = s.stack ∧ (∀ k, (s.loadRegsFrom x a).stackAt k = s.stackAt k) ∧
    (s.loadRegsFrom x a).dt = s.dt ∧ (s.loadRegsFrom x a).st = s.st ∧ (s.loadRegsFrom x a).fb = s.fb ∧
    (∀ px py, (s.loadRegsFrom x a).pixel px py = s.pixel px py) ∧ (s.loadRegsFrom x a).keys = s.keys ∧
    (∀ k, (s.loadRegsFrom x a).key k = s.key k) ∧ (s.loadRegsFrom x a).mem = s.mem ∧
    (∀ z, (s.loadRegsFrom x a).readMem z = s.readMem z) ∧ (s.loadRegsFrom x a).pend = s.pend ∧
    (s.loadRegsFrom x a).faulted = s.faulted ∧ (s.loadRegsFrom x a).faultCause = s.faultCause ∧
    (s.loadRegsFrom x a).faultPc = s.faultPc ∧ (s.loadRegsFrom x a).faultOp = s.faultOp ∧
    (s.loadRegsFrom x a).tone = s.tone ∧ (s.loadRegsFrom x a).unk = s.unk ∧ (s.loadRegsFrom x a).unkOp = s.unkOp ∧
    (s.loadRegsFrom x a).draw = s.draw ∧ (s.loadRegsFrom x a).spec = s.spec ∧
    (s.loadRegsFrom x a).rndDraws = s.rndDraws := by
  and_intros <;> intros <;> simp only [State.loadRegsFrom, State.readMem, State.stackAt, State.key, State.pixel]

@[simp] theorem State.bumpIndex_keeps (s : State) (x : Reg) :
    (s.bumpIndex x).v = s.v ∧ (∀ y, (s.bumpIndex x).reg y = s.reg y) ∧ (s.bumpIndex x).pc = s.pc ∧
    (s.bumpIndex x).sp = s.sp ∧ (s.bumpIndex x).stack = s.stack ∧ (∀ k, (s.bumpIndex x).stackAt k = s.stackAt k) ∧
    (s.bumpIndex x).dt = s.dt ∧ (s.bumpIndex x).st = s.st ∧ (s.bumpIndex x).fb = s.fb ∧
    (∀ px py, (s.bumpIndex x).pixel px py = s.pixel px py) ∧ (s.bumpIndex x).keys = s.keys ∧
    (∀ k, (s.bumpIndex x).key k = s.key k) ∧ (s.bumpIndex x).mem = s.mem ∧
    (∀ z, (s.bumpIndex x).readMem z = s.readMem z) ∧ (s.bumpIndex x).pend = s.pend ∧
    (s.bumpIndex x).faulted = s.faulted ∧ (s.bumpIndex x).faultCause = s.faultCause ∧
    (s.bumpIndex x).faultPc = s.faultPc ∧ (s.bumpIndex x).faultOp = s.faultOp ∧ (s.bumpIndex x).tone = s.tone ∧
    (s.bumpIndex x).unk = s.unk ∧ (s.bumpIndex x).unkOp = s.unkOp ∧ (s.bumpIndex x).draw = s.draw ∧
    (s.bumpIndex x).spec = s.spec ∧ (s.bumpIndex x).rndDraws = s.rndDraws := by
  unfold State.bumpIndex
  split <;> and_intros <;> intros <;> rfl

@[simp] theorem State.countDraw_keeps (s : State) :
    (s.countDraw).v = s.v ∧ (∀ y, (s.countDraw).reg y = s.reg y) ∧ (s.countDraw).i = s.i ∧ (s.countDraw).pc = s.pc ∧
    (s.countDraw).sp = s.sp ∧ (s.countDraw).stack = s.stack ∧ (∀ k, (s.countDraw).stackAt k = s.stackAt k) ∧
    (s.countDraw).dt = s.dt ∧ (s.countDraw).st = s.st ∧ (s.countDraw).fb = s.fb ∧
    (∀ px py, (s.countDraw).pixel px py = s.pixel px py) ∧ (s.countDraw).keys = s.keys ∧
    (∀ k, (s.countDraw).key k = s.key k) ∧ (s.countDraw).mem = s.mem ∧ (∀ z, (s.countDraw).readMem z = s.readMem z) ∧
    (s.countDraw).pend = s.pend ∧ (s.countDraw).faulted = s.faulted ∧ (s.countDraw).faultCause = s.faultCause ∧
    (s.countDraw).faultPc = s.faultPc ∧ (s.countDraw).faultOp = s.faultOp ∧ (s.countDraw).tone = s.tone ∧
    (s.countDraw).unk = s.unk ∧ (s.countDraw).unkOp = s.unkOp ∧ (s.countDraw).draw = s.draw ∧
    (s.countDraw).spec = s.spec := by
  and_intros <;> intros <;> rfl

@[simp] theorem State.raiseFault_keeps (s : State) (c : Fault) (op : Option Word) :
    (s.raiseFault c op).v = s.v ∧ (∀ y, (s.raiseFault c op).reg y = s.reg y) ∧ (s.raiseFault c op).i = s.i ∧
    (s.raiseFault c op).pc = s.pc ∧ (s.raiseFault c op).sp = s.sp ∧ (s.raiseFault c op).stack = s.stack ∧
    (∀ k, (s.raiseFault c op).stackAt k = s.stackAt k) ∧ (s.raiseFault c op).dt = s.dt ∧
    (s.raiseFault c op).st = s.st ∧ (s.raiseFault c op).fb = s.fb ∧
    (∀ px py, (s.raiseFault c op).pixel px py = s.pixel px py) ∧ (s.raiseFault c op).keys = s.keys ∧
    (∀ k, (s.raiseFault c op).key k = s.key k) ∧ (s.raiseFault c op).mem = s.mem ∧
    (∀ z, (s.raiseFault c op).readMem z = s.readMem z) ∧ (s.raiseFault c op).pend = s.pend ∧
    (s.raiseFault c op).unk = s.unk ∧ (s.raiseFault c op).unkOp = s.unkOp ∧ (s.raiseFault c op).draw = s.draw ∧
    (s.raiseFault c op).spec = s.spec ∧ (s.raiseFault c op).rndDraws = s.rndDraws := by
  and_intros <;> intros <;> rfl

@[simp] theorem State.drawPixels_keeps (s : State) (ks : List Nat) :
    (s.drawPixels ks).i = s.i ∧ (s.drawPixels ks).pc = s.pc ∧ (s.drawPixels ks).sp = s.sp ∧
    (s.drawPixels ks).stack = s.stack ∧ (∀ k, (s.drawPixels ks).stackAt k = s.stackAt k) ∧
    (s.drawPixels ks).dt = s.dt ∧ (s.drawPixels ks).st = s.st ∧ (s.drawPixels ks).keys = s.keys ∧
    (∀ k, (s.drawPixels ks).key k = s.key k) ∧ (s.drawPixels ks).mem = s.mem ∧
    (∀ z, (s.drawPixels ks).readMem z = s.readMem z) ∧ (s.drawPixels ks).pend = s.pend ∧
    (s.drawPixels ks).faulted = s.faulted ∧ (s.drawPixels ks).faultCause = s.faultCause ∧
    (s.drawPixels ks).faultPc = s.faultPc ∧ (s.drawPixels ks).faultOp = s.faultOp ∧ (s.drawPixels ks).tone = s.tone ∧
    (s.drawPixels ks).unk = s.unk ∧ (s.drawPixels ks).unkOp = s.unkOp ∧ (s.drawPixels ks).spec = s.spec ∧
    (s.drawPixels ks).rndDraws = s.rndDraws := by
  and_intros <;> intros <;> rfl

@[simp] theorem State.beginStep_keeps (s : State) :
    (s.beginStep).v = s.v ∧ (∀ y, (s.beginStep).reg y = s.reg y) ∧ (s.beginStep).i = s.i ∧ (s.beginStep).pc = s.pc ∧
    (s.beginStep).sp = s.sp ∧ (s.beginStep).stack = s.stack ∧ (∀ k, (s.beginStep).stackAt k = s.stackAt k) ∧
    (s.beginStep).dt = s.dt ∧ (s.beginStep).st = s.st ∧ (s.beginStep).fb = s.fb ∧
    (∀ px py, (s.beginStep).pixel px py = s.pixel px py) ∧ (s.beginStep).keys = s.keys ∧
    (∀ k, (s.beginStep).key k = s.key k) ∧ (s.beginStep).mem = s.mem ∧ (∀ z, (s.beginStep).readMem z = s.readMem z) ∧
    (s.beginStep).pend = s.pend ∧ (s.beginStep).faulted = s.faulted ∧ (s.beginStep).faultCause = s.faultCause ∧
    (s.beginStep).faultPc = s.faultPc ∧ (s.beginStep).faultOp = s.faultOp ∧ (s.beginStep).tone = s.tone ∧
    (s.beginStep).unkOp = s.unkOp ∧ (s.beginStep).spec = s.spec ∧ (s.beginStep).rndDraws = s.rndDraws := by
  and_intros <;> intros <;> rfl

@[simp] theorem State.idleStep_keeps (s : State) :
    (s.idleStep).v = s.v ∧ (∀ y, (s.idleStep).reg y = s.reg y) ∧ (s.idleStep).i = s.i ∧ (s.idleStep).pc = s.pc ∧
    (s.idleStep).sp = s.sp ∧ (s.idleStep).stack = s.stack ∧ (∀ k, (s.idleStep).stackAt k = s.stackAt k) ∧
    (s.idleStep).dt = s.dt ∧ (s.idleStep).st = s.st ∧ (s.idleStep).fb = s.fb ∧
    (∀ px py, (s.idleStep).pixel px py = s.pixel px py) ∧ (s.idleStep).keys = s.keys ∧
    (∀ k, (s.idleStep).key k = s.key k) ∧ (s.idleStep).mem = s.mem ∧ (∀ z, (s.idleStep).readMem z = s.readMem z) ∧
    (s.idleStep).pend = s.pend ∧ (s.idleStep).faulted = s.faulted ∧ (s.idleStep).faultCause = s.faultCause ∧
    (s.idleStep).faultPc = s.faultPc ∧ (s.idleStep).faultOp = s.faultOp ∧ (s.idleStep).unkOp = s.unkOp ∧
    (s.idleStep).spec = s.spec ∧ (s.idleStep).rndDraws = s.rndDraws := by
  and_intros <;> intros <;> rfl

@[simp] theorem State.tick_keeps (s : State) :
    (s.tick).v = s.v ∧ (∀ y, (s.tick).reg y = s.reg y) ∧ (s.tick).i = s.i ∧ (s.tick).pc = s.pc ∧ (s.tick).sp = s.sp ∧
    (s.tick).stack = s.stack ∧ (∀ k, (s.tick).stackAt k = s.stackAt k) ∧ (s.tick).fb = s.fb ∧
    (∀ px py, (s.tick).pixel px py = s.pixel px py) ∧ (s.tick).keys = s.keys ∧ (∀ k, (s.tick).key k = s.key k) ∧
    (s.tick).mem = s.mem ∧ (∀ z, (s.tick).readMem z = s.readMem z) ∧ (s.tick).pend = s.pend ∧
    (s.tick).faulted = s.faulted ∧ (s.tick).faultCause = s.faultCause ∧ (s.tick).faultPc = s.faultPc ∧
    (s.tick).faultOp = s.faultOp ∧ (s.tick).tone = s.tone ∧ (s.tick).unk = s.unk ∧ (s.tick).unkOp = s.unkOp ∧
    (s.tick).draw = s.draw ∧ (s.tick).spec = s.spec ∧ (s.tick).rndDraws = s.rndDraws := by
  and_intros <;> intros <;> rfl

/-! ## What the updates write -/

@[simp] theorem State.setIndex_i (s : State) (w : Word) : (s.setIndex w).i = w := rfl
@[simp] theorem State.setPc_pc (s : State) (w : Word) : (s.setPc w).pc = w := rfl
@[simp] theorem State.advance_pc (s : State) : s.advance.pc = s.pc + 2 := rfl
@[simp] theorem State.setDelay_dt (s : State) (b : Byte) : (s.setDelay b).dt = b := rfl
@[simp] theorem State.setSound_st (s : State) (b : Byte) : (s.setSound b).st = b := rfl
@[simp] theorem State.push_sp (s : State) (w : Word) : (s.push w).sp = s.sp + 1 := rfl
@[simp] theorem State.popPc_sp (s : State) : s.popPc.sp = s.sp - 1 := rfl
@[simp] theorem State.popPc_pc (s : State) : s.popPc.pc = s.stackAt (s.sp - 1).toNat := rfl
@[simp] theorem State.countDraw_rndDraws (s : State) : s.countDraw.rndDraws = s.rndDraws + 1 := rfl
@[simp] theorem State.drawPixels_draw (s : State) (ks : List Nat) : (s.drawPixels ks).draw = true := rfl
@[simp] theorem State.drawPixels_fb (s : State) (ks : List Nat) : (s.drawPixels ks).fb = (xorPixels s.fb 0 ks).1 := rfl
@[simp] theorem State.tick_dt (s : State) : s.tick.dt = countDown s.dt := rfl
@[simp] theorem State.tick_st (s : State) : s.tick.st = countDown s.st := rfl
@[simp] theorem State.beginStep_unk (s : State) : s.beginStep.unk = false := rfl
@[simp] theorem State.beginStep_draw (s : State) : s.beginStep.draw = false := rfl
@[simp] theorem State.idleStep_outputs (s : State) :
    s.idleStep.unk = false ∧ s.idleStep.draw = false ∧ s.idleStep.tone = false := ⟨rfl, rfl, rfl⟩
@[simp] theorem State.raiseFault_record (s : State) (c : Fault) (op : Option Word) :
    (s.raiseFault c op).faulted = true ∧ (s.raiseFault c op).faultCause = some c ∧
    (s.raiseFault c op).faultPc = s.pc ∧ (s.raiseFault c op).faultOp = op ∧ (s.raiseFault c op).tone = false :=
  ⟨rfl, rfl, rfl, rfl, rfl⟩

@[simp] theorem State.skipIf_pc (s : State) (c : Bool) : (s.skipIf c).pc = if c then s.pc + 4 else s.pc + 2 := by
  unfold State.skipIf
  split
  · show s.pc + 2 + 2 = s.pc + 4
    rw [BitVec.add_assoc]; rfl
  · rfl

/-- A skip as one update of PC. -/
theorem State.skipIf_eq (s : State) (c : Bool) : s.skipIf c = { s with pc := if c then s.pc + 2 + 2 else s.pc + 2 } := by
  cases c <;> rfl

/-- The increment of I as one update of I. -/
theorem State.bumpIndex_eq (s : State) (x : Reg) : s.bumpIndex x =
    { s with i := if s.spec.quirks.loadStoreIncrementsIndex then s.i + x.setWidth 16 + 1 else s.i } := by
  unfold State.bumpIndex
  split <;> rfl

@[simp] theorem State.bumpIndex_i (s : State) (x : Reg) :
    (s.bumpIndex x).i = if s.spec.quirks.loadStoreIncrementsIndex then s.i + x.setWidth 16 + 1 else s.i := by
  unfold State.bumpIndex
  split <;> rfl

/-! ## Reading after writing -/

theorem Reg.toNat_eq_iff {x y : Reg} : x.toNat = y.toNat ↔ x = y := BitVec.toNat_inj

@[simp] theorem State.reg_setReg (s : State) (x : Reg) (b : Byte) (y : Reg) :
    (s.setReg x b).reg y = if y = x then b else s.reg y := by
  unfold State.setReg State.reg
  rw [Vector.getElem_set]
  simp only [Reg.toNat_eq_iff, eq_comm]

@[simp] theorem State.reg_setRegAndFlag (s : State) (x : Reg) (b f : Byte) (y : Reg) :
    (s.setRegAndFlag x b f).reg y = if y = VF then f else if y = x then b else s.reg y := by
  unfold State.setRegAndFlag
  rw [State.reg_setReg, State.reg_setReg]

@[simp] theorem State.reg_drawPixels (s : State) (ks : List Nat) (y : Reg) :
    (s.drawPixels ks).reg y = if y = VF then (xorPixels s.fb 0 ks).2 else s.reg y :=
  State.reg_setReg _ _ _ _

@[simp] theorem State.reg_loadRegsFrom (s : State) (x : Reg) (a : Nat) (y : Reg) :
    (s.loadRegsFrom x a).reg y = if y.toNat ≤ x.toNat then s.readMem (a + y.toNat) else s.reg y := by
  simp [State.loadRegsFrom, State.reg]

@[simp] theorem State.stackAt_push (s : State) (w : Word) (k : Nat) :
    (s.push w).stackAt k = if k = s.sp.toNat ∧ k < 16 then w else s.stackAt k := by
  unfold State.push State.stackAt
  simp only [Vector.getElem?_setIfInBounds]
  by_cases h : s.sp.toNat = k
  · subst h
    by_cases h2 : s.sp.toNat < 16 <;> simp [h2]
  · simp [h, Ne.symm h]

@[simp] theorem State.readMem_writeMem (s : State) (a : Nat) (bs : List Byte) (x : Nat) :
    (s.writeMem a bs).readMem x = if h : a ≤ x ∧ x < a + bs.length then bs[x - a]'(by omega) else s.readMem x :=
  Memory.read_writeBytes s.mem a bs x

theorem State.length_regsUpTo (s : State) (x : Reg) : (s.regsUpTo x).length = x.toNat + 1 := by
  have := x.isLt
  simp [State.regsUpTo]
  omega

theorem State.getElem_regsUpTo (s : State) (x : Reg) (k : Nat) (h : k < (s.regsUpTo x).length) :
    (s.regsUpTo x)[k] = s.reg (BitVec.ofNat 4 k) := by
  have hx := x.isLt
  rw [State.length_regsUpTo] at h
  simp [State.regsUpTo, State.reg, Nat.mod_eq_of_lt (show k < 16 by omega)]

end Sys2Proof.Machine
end

