-- ==== Sys2Proof/Laws/Ops.lean ====
section
/-! SUPPORT. One lemma per shared operation: everything it can do, and the footprint it keeps to. -/

namespace Sys2Proof.Machine

/-! ## Bounds, flags, words -/

theorem outOfMemory_iff (a n : Nat) : outOfMemory a n = true ↔ 0 < n ∧ 0xFFF < a + n - 1 := by
  simp [outOfMemory]

theorem outOfMemory_eq_false_iff (a n : Nat) : outOfMemory a n = false ↔ n = 0 ∨ a + n - 1 ≤ 0xFFF := by
  rw [← Bool.not_eq_true, outOfMemory_iff]
  omega

@[simp] theorem zextByte_toNat (b : Byte) : (zextByte b).toNat = b.toNat := by
  have := b.isLt
  simp [zextByte]
  omega

@[simp] theorem zextAddr_toNat (a : Addr) : (zextAddr a).toNat = a.toNat := by
  have := a.isLt
  simp [zextAddr]
  omega

theorem toNat_flagByte (b : Bool) : (flagByte b).toNat = if b then 1 else 0 := by
  cases b <;> rfl

theorem toNat_carryFlag (a b : Byte) : (carryFlag a b).toNat = if 255 < a.toNat + b.toNat then 1 else 0 := by
  simp [carryFlag, toNat_flagByte]

theorem toNat_greaterFlag (a b : Byte) : (greaterFlag a b).toNat = if b.toNat < a.toNat then 1 else 0 := by
  simp [greaterFlag, toNat_flagByte]

theorem toNat_lowBitFlag (s : Byte) : (lowBitFlag s).toNat = s.toNat % 2 := by
  simp [lowBitFlag]

theorem toNat_highBitFlag (s : Byte) : (highBitFlag s).toNat = s.toNat / 128 := by
  have : ∀ s : Byte, (highBitFlag s).toNat = s.toNat / 128 := by decide
  exact this s

theorem toNat_countDown (b : Byte) : (countDown b).toNat = b.toNat - 1 := by
  have hb := b.isLt
  unfold countDown
  split
  · rename_i h; subst h; rfl
  · rename_i h
    have h0 : b.toNat ≠ 0 := fun hz => h (BitVec.eq_of_toNat_eq hz)
    have h1 : (1 : Byte).toNat = 1 := rfl
    rw [BitVec.toNat_sub]
    omega

theorem toNat_wordOfBytes (hi lo : Byte) : (wordOfBytes hi lo).toNat = 256 * hi.toNat + lo.toNat := by
  have := lo.isLt
  have h := Nat.shiftLeft_add_eq_or_of_lt (show lo.toNat < 2 ^ 8 by omega) hi.toNat
  simp only [wordOfBytes, BitVec.toNat_append]
  rw [← h, Nat.shiftLeft_eq]
  omega

/-! ## The screen: what a run of XORs keeps -/

/-- The pixels that are not in the list are left alone. -/
theorem xorPixels_read_of_not_mem (fb : Framebuffer) (c : Byte) (ks : List Nat) (k : Nat) (h : k ∉ ks) :
    Framebuffer.read (xorPixels fb c ks).1 k = Framebuffer.read fb k := by
  induction ks generalizing fb c with
  | nil => rfl
  | cons j rest ih =>
    simp only [List.mem_cons, not_or] at h
    rw [xorPixels, ih _ _ h.2, Framebuffer.read_write, if_neg h.1]

/-- Canonical form, screen bounds and pixel values are kept. -/
theorem xorPixels_keeps (fb : Framebuffer) (c : Byte) (ks : List Nat) (n : Nat) (hwf : Framebuffer.wf fb = true)
    (hn : ∀ e ∈ fb, e.1 < n) (hb : ∀ e ∈ fb, e.2 = 1) (hk : ∀ k ∈ ks, k < n) :
    Framebuffer.wf (xorPixels fb c ks).1 = true ∧ (∀ e ∈ (xorPixels fb c ks).1, e.1 < n) ∧
      (∀ e ∈ (xorPixels fb c ks).1, e.2 = 1) := by
  induction ks generalizing fb c with
  | nil => exact ⟨hwf, hn, hb⟩
  | cons j rest ih =>
    refine ih _ _ (Framebuffer.write_wf _ _ hwf) (fun e he => ?_) (fun e he => ?_) fun k hk' => hk k (by simp [hk'])
    · rcases Cells.mem_write he with ⟨rfl, -⟩ | he
      · exact hk j (by simp)
      · exact hn e he
    · rcases Cells.mem_write he with ⟨rfl, hne⟩ | he
      · rcases Framebuffer.read_bit hb j with h | h
        · rw [h]; rfl
        · rw [h] at hne; exact absurd rfl hne
      · exact hb e he

/-- A touched pixel lies on the screen, when the screen has a pixel at all. -/
theorem place_lt {p : PlatformSpec} {vx vy c r : Nat} {q : Nat × Nat} (hw : 1 ≤ p.videoWidth) (hh : 1 ≤ p.videoHeight)
    (h : place p vx vy c r = some q) : q.1 < p.videoWidth ∧ q.2 < p.videoHeight := by
  unfold place at h
  split at h
  · cases h
    exact ⟨Nat.mod_lt _ (by omega), Nat.mod_lt _ (by omega)⟩
  · split at h
    · cases h; assumption
    · cases h

theorem pixelIndex_lt {w h px py : Nat} (hx : px < w) (hy : py < h) : pixelIndex w px py < w * h := by
  unfold pixelIndex
  calc py * w + px < py * w + w := by omega
    _ = (py + 1) * w := by rw [Nat.succ_mul]
    _ ≤ h * w := Nat.mul_le_mul_right _ hy
    _ = w * h := Nat.mul_comm _ _

/-- Two pixels of the screen with one flat index are one pixel. -/
theorem pixelIndex_inj {w px py qx qy : Nat} (hp : px < w) (hq : qx < w) (h : pixelIndex w px py = pixelIndex w qx qy) :
    px = qx ∧ py = qy := by
  unfold pixelIndex at h
  have h1 : px = qx := by
    have := congrArg (· % w) h
    simpa [Nat.mul_add_mod_self_right, Nat.mod_eq_of_lt hp, Nat.mod_eq_of_lt hq] using this
  subst h1
  have h2 : py * w = qy * w := by omega
  exact ⟨rfl, Nat.eq_of_mul_eq_mul_right (by omega) h2⟩

theorem mem_spritePixels {p : PlatformSpec} {vx vy r0 : Nat} {rows : List Byte} {k : Nat} :
    k ∈ spritePixels p vx vy r0 rows ↔
      ∃ r c, ∃ h : r < rows.length, c < 8 ∧ bitTarget p vx vy (r0 + r) rows[r] c = some k := by
  induction rows generalizing r0 with
  | nil => simp [spritePixels]
  | cons row rest ih =>
    simp only [spritePixels, List.mem_append, rowPixels, List.mem_filterMap, List.mem_range, ih, List.length_cons]
    constructor
    · rintro (⟨c, hc, h⟩ | ⟨r, c, hr, hc, h⟩)
      · exact ⟨0, c, by omega, hc, h⟩
      · exact ⟨r + 1, c, by omega, hc, by simpa [Nat.add_assoc, Nat.add_comm 1 r] using h⟩
    · rintro ⟨r, c, hr, hc, h⟩
      cases r with
      | zero => exact .inl ⟨c, hc, h⟩
      | succ r => exact .inr ⟨r, c, by omega, hc, by simpa [Nat.add_assoc, Nat.add_comm 1 r] using h⟩

theorem count_filterMap (l : List Nat) (f : Nat → Option Nat) (k : Nat) :
    (l.filterMap f).count k = l.countP fun c => decide (f c = some k) := by
  induction l with
  | nil => rfl
  | cons a l ih =>
    rw [List.filterMap_cons, List.countP_cons]
    cases h : f a with
    | none => simp [ih]
    | some b => simp [List.count_cons, ih]

/-- How often a sprite touches a pixel: once for every bit that lands on it (R185). -/
theorem count_spritePixels (p : PlatformSpec) (vx vy r0 k : Nat) (rows : List Byte) :
    (spritePixels p vx vy r0 rows).count k = ((List.range rows.length).map fun r =>
      (List.range 8).countP fun c => decide (bitTarget p vx vy (r0 + r) (rows.getD r 0) c = some k)).sum := by
  induction rows generalizing r0 with
  | nil => rfl
  | cons row rest ih =>
    rw [spritePixels, List.count_append, ih, rowPixels, count_filterMap]
    simp [List.range_succ_eq_map, List.map_map, Function.comp_def, Nat.add_assoc, Nat.add_comm 1]

theorem bitTarget_eq_some {p : PlatformSpec} {vx vy r : Nat} {row : Byte} {c k : Nat} :
    bitTarget p vx vy r row c = some k ↔
      row.getLsbD (7 - c) = true ∧ ∃ q, place p vx vy c r = some q ∧ k = pixelIndex p.videoWidth q.1 q.2 := by
  unfold bitTarget
  split
  · simp [*, eq_comm]
  · simp [*]

theorem touchedPixels_lt {s : State} {x y : Reg} {n : Nibble} (hw : 1 ≤ s.spec.videoWidth)
    (hh : 1 ≤ s.spec.videoHeight) {k : Nat} (hk : k ∈ s.touchedPixels x y n) :
    k < s.spec.videoWidth * s.spec.videoHeight := by
  obtain ⟨r, c, _, _, h⟩ := mem_spritePixels.mp hk
  obtain ⟨-, q, hq, rfl⟩ := bitTarget_eq_some.mp h
  exact pixelIndex_lt (place_lt hw hh hq).1 (place_lt hw hh hq).2

/-- The sprite pixels depend on SPEC through the screen size and wrapSprites only. -/
theorem spritePixels_congr {p p' : PlatformSpec} (hw : p'.videoWidth = p.videoWidth) (hh : p'.videoHeight = p.videoHeight)
    (hq : p'.quirks.wrapSprites = p.quirks.wrapSprites) (vx vy r : Nat) (rows : List Byte) :
    spritePixels p' vx vy r rows = spritePixels p vx vy r rows := by
  have hplace : place p' = place p := by
    funext vx vy c r
    simp only [place, hw, hh, hq]
  induction rows generalizing r with
  | nil => rfl
  | cons row rest ih =>
    have hrow : rowPixels p' vx vy r row = rowPixels p vx vy r row := by
      unfold rowPixels bitTarget
      rw [hplace, hw]
    rw [spritePixels, spritePixels, ih, hrow]

/-- The touched pixels depend on V, I, the sprite bytes, the screen size and wrapSprites only. -/
theorem State.touchedPixels_congr {s u : State} {x y : Reg} {n : Nibble} (hx : u.reg x = s.reg x) (hy : u.reg y = s.reg y)
    (hi : u.i = s.i) (hm : ∀ k, k < n.toNat → u.readMem (s.i.toNat + k) = s.readMem (s.i.toNat + k))
    (hw : u.spec.videoWidth = s.spec.videoWidth) (hh : u.spec.videoHeight = s.spec.videoHeight)
    (hq : u.spec.quirks.wrapSprites = s.spec.quirks.wrapSprites) : u.touchedPixels x y n = s.touchedPixels x y n := by
  unfold State.touchedPixels State.indexAddr
  rw [spritePixels_congr hw hh hq, hx, hy, hi, Memory.readBytes_congr (m' := s.mem) fun k hk => hm k hk]

/-! ## Keys -/

theorem leastKey_eq_some {s : State} {k : Nat} :
    s.leastKey = some k ↔ k < 16 ∧ s.key k = true ∧ ∀ j, j < k → s.key j = false := by
  unfold State.leastKey
  rw [List.find?_range_eq_some]
  simp only [List.mem_range]
  constructor
  · rintro ⟨h1, h2, h3⟩; exact ⟨h2, h1, fun j hj => by simpa using h3 j hj⟩
  · rintro ⟨h1, h2, h3⟩; exact ⟨h2, h1, fun j hj => by simpa using h3 j hj⟩

theorem leastKey_eq_none {s : State} : s.leastKey = none ↔ ∀ k, k < 16 → s.key k = false := by
  unfold State.leastKey
  simp [List.find?_eq_none]

/-! ## Faults -/

/-- Taking a fault is what `FaultTaken` says (R220, R222). -/
theorem raiseFault_taken (s : State) (c : Fault) (op : Option Word) : FaultTaken c op s (s.raiseFault c op) :=
  ⟨rfl, rfl, rfl, rfl, rfl, rfl, by constructor <;> simp⟩

/-! ## The end of a step -/

theorem State.endStep_of_faulted {s : State} (st0 : Byte) (h : s.faulted = true) : s.endStep st0 = s := by
  simp [State.endStep, h]

theorem State.endStep_of_not_faulted {s : State} (st0 : Byte) (h : s.faulted = false) :
    s.endStep st0 = { s.tick with tone := decide (st0.toNat > 0) } := by
  simp [State.endStep, h]

/-- Everything a step can do: idle on a fault or at the end, take PC_RANGE, or execute the fetched word. -/
theorem step_cases (s : State) :
    (s.faulted = true ∧ step s = .next s.idleStep) ∨
    (s.faulted = false ∧ s.pend.toNat ≤ s.pc.toNat ∧ step s = .next s.idleStep) ∨
    (s.faulted = false ∧ s.pc.toNat < s.pend.toNat ∧ 0xFFE < s.pc.toNat ∧
      step s = .next (s.beginStep.raiseFault .pcRange none)) ∨
    (s.Executes ∧ step s = finishStep s.st (execWord s.fetchOp s.beginStep)) := by
  unfold step State.atEnd State.fetchOutOfRange State.Executes
  by_cases h1 : s.faulted = true
  · exact .inl ⟨h1, by simp [h1]⟩
  · have h1 : s.faulted = false := by simpa using h1
    by_cases h2 : s.pend.toNat ≤ s.pc.toNat
    · exact .inr (.inl ⟨h1, h2, by simp [h1, h2]⟩)
    · by_cases h3 : s.pc.toNat > 0xFFE
      · exact .inr (.inr (.inl ⟨h1, by omega, h3, by simp [h1, h2, h3]⟩))
      · exact .inr (.inr (.inr ⟨⟨h1, by omega, by omega⟩, by simp [h1, h2, h3]⟩))

/-- An executing step is `execWord` between the opening and the end. -/
theorem step_of_executes {s : State} (h : s.Executes) :
    step s = finishStep s.st (execWord s.fetchOp s.beginStep) := by
  obtain ⟨h1, h2, h3⟩ := h
  unfold step State.atEnd State.fetchOutOfRange
  rw [if_neg (by simp [h1]), if_neg (by simp; omega), if_neg (by simp; omega)]

/-- A run whose first step answers a state goes on from that state. -/
theorem core_run_of_step (n : Nat) {s t : State} (h : step s = .next t) :
    Sys2Proof.core.run (n + 1) s = Sys2Proof.core.run n t := by
  have key : ∀ (M : Host.Core) (a b : M.State), M.step a = .next b → M.run (n + 1) a = M.run n b := by
    intro M a b hab
    simp [Host.Core.run, hab]
  exact key Sys2Proof.core s t h

theorem execWord_of_ok {op : Word} {i : Instr} (h : decodeWord op = .ok i) (s : State) : execWord op s = exec i s := by
  simp [execWord, h]

theorem execWord_of_error {op : Word} {e : Reject} (h : decodeWord op = .error e) (s : State) :
    execWord op s = execUnknown op s := by
  simp [execWord, h]

end Sys2Proof.Machine
end

