-- ==== Sys2Proof/Laws/Exec.lean ====
section
/-! SUPPORT. The branches of the meanings that can fault or wait, one lemma per branch: where an instruction has its effect and
where it takes its fault (spec/60_exceptions.md R221). Every other meaning is one equation by definition. -/

namespace Sys2Proof.Machine

variable {s : State}

theorem exec_ret_ok (h : s.sp ≠ 0) : exec .ret s = .next s.popPc := if_neg h

theorem exec_ret_fault (h : s.sp = 0) :
    exec .ret s = .next (s.raiseFault .stackUnderflow (some (encode .ret))) := if_pos h

theorem exec_call_ok {nnn : Addr} (h : s.sp ≠ 16) :
    exec (.call nnn) s = .next ((s.push (s.pc + 2)).setPc (zextAddr nnn)) := if_neg h

theorem exec_call_fault {nnn : Addr} (h : s.sp = 16) :
    exec (.call nnn) s = .next (s.raiseFault .stackOverflow (some (encode (.call nnn)))) := if_pos h

theorem exec_ldBcd_ok {x : Reg} (h : s.i.toNat + 2 ≤ 0xFFF) :
    exec (.ldBcd x) s = .next (s.writeMem s.i.toNat (bcdDigits (s.reg x))).advance :=
  if_neg (by rw [outOfMemory_iff]; unfold State.indexAddr; omega)

theorem exec_ldBcd_fault {x : Reg} (h : 0xFFF < s.i.toNat + 2) :
    exec (.ldBcd x) s = .next (s.raiseFault .memRange (some (encode (.ldBcd x)))) :=
  if_pos (by rw [outOfMemory_iff]; unfold State.indexAddr; omega)

theorem exec_stRegs_ok {x : Reg} (h : s.i.toNat + x.toNat ≤ 0xFFF) :
    exec (.stRegs x) s = .next ((s.writeMem s.i.toNat (s.regsUpTo x)).bumpIndex x).advance :=
  if_neg (by rw [outOfMemory_iff]; unfold State.indexAddr; omega)

theorem exec_stRegs_fault {x : Reg} (h : 0xFFF < s.i.toNat + x.toNat) :
    exec (.stRegs x) s = .next (s.raiseFault .memRange (some (encode (.stRegs x)))) :=
  if_pos (by rw [outOfMemory_iff]; unfold State.indexAddr; omega)

theorem exec_ldRegs_ok {x : Reg} (h : s.i.toNat + x.toNat ≤ 0xFFF) :
    exec (.ldRegs x) s = .next ((s.loadRegsFrom x s.i.toNat).bumpIndex x).advance :=
  if_neg (by rw [outOfMemory_iff]; unfold State.indexAddr; omega)

theorem exec_ldRegs_fault {x : Reg} (h : 0xFFF < s.i.toNat + x.toNat) :
    exec (.ldRegs x) s = .next (s.raiseFault .memRange (some (encode (.ldRegs x)))) :=
  if_pos (by rw [outOfMemory_iff]; unfold State.indexAddr; omega)

theorem exec_drw_ok {x y : Reg} {n : Nibble} (h : n = 0 ∨ s.i.toNat + n.toNat - 1 ≤ 0xFFF) :
    exec (.drw x y n) s = .next (s.drawPixels (s.touchedPixels x y n)).advance :=
  if_neg (by
    rw [outOfMemory_iff]
    unfold State.indexAddr
    rcases h with rfl | h
    · simp
    · omega)

theorem exec_drw_fault {x y : Reg} {n : Nibble} (h0 : n ≠ 0) (h : 0xFFF < s.i.toNat + n.toNat - 1) :
    exec (.drw x y n) s = .next (s.raiseFault .memRange (some (encode (.drw x y n)))) :=
  if_pos (by
    rw [outOfMemory_iff]
    exact ⟨Nat.pos_of_ne_zero fun hz => h0 (BitVec.eq_of_toNat_eq hz), h⟩)

theorem exec_skp_ok {x : Reg} (h : (s.reg x).toNat ≤ 15) :
    exec (.skp x) s = .next (s.skipIf (s.key (s.reg x).toNat)) := if_neg (by omega)

theorem exec_skp_fault {x : Reg} (h : 15 < (s.reg x).toNat) :
    exec (.skp x) s = .next (s.raiseFault .keyRange (some (encode (.skp x)))) := if_pos h

theorem exec_sknp_ok {x : Reg} (h : (s.reg x).toNat ≤ 15) :
    exec (.sknp x) s = .next (s.skipIf (!s.key (s.reg x).toNat)) := if_neg (by omega)

theorem exec_sknp_fault {x : Reg} (h : 15 < (s.reg x).toNat) :
    exec (.sknp x) s = .next (s.raiseFault .keyRange (some (encode (.sknp x)))) := if_pos h

theorem exec_ldVxKey_some {x : Reg} {k : Nat} (h : s.leastKey = some k) :
    exec (.ldVxKey x) s = .next (s.setReg x (BitVec.ofNat 8 k)).advance := by
  simp [exec, execLdVxKey, h]

theorem exec_ldVxKey_none {x : Reg} (h : s.leastKey = none) : exec (.ldVxKey x) s = .next s := by
  simp [exec, execLdVxKey, h]

/-- What `exec` does to the fault record: nothing, or it takes a fault with its own opcode and changes nothing else. Neither
register skip faults, so the opcode is the fetched word (their ignored n is the one nibble `encode` drops). -/
theorem exec_record {i : Instr} {s t : State} (h : exec i s = .next t) :
    (t.faulted = s.faulted ∧ t.faultCause = s.faultCause ∧ t.faultPc = s.faultPc ∧ t.faultOp = s.faultOp) ∨
    ∃ c, c ≠ .pcRange ∧ t = s.raiseFault c (some (encode i)) ∧ ∀ x y, i ≠ .seReg x y ∧ i ≠ .sneReg x y := by
  cases i <;> simp only [exec] at h
  case ret => unfold execRet at h; split at h <;> cases h <;> [exact .inr ⟨_, by simp, rfl, by simp⟩; simp]
  case call => unfold execCall at h; split at h <;> cases h <;> [exact .inr ⟨_, by simp, rfl, by simp⟩; simp]
  case ldBcd => unfold execLdBcd at h; split at h <;> cases h <;> [exact .inr ⟨_, by simp, rfl, by simp⟩; simp]
  case stRegs => unfold execStRegs at h; split at h <;> cases h <;> [exact .inr ⟨_, by simp, rfl, by simp⟩; simp]
  case ldRegs => unfold execLdRegs at h; split at h <;> cases h <;> [exact .inr ⟨_, by simp, rfl, by simp⟩; simp]
  case drw => unfold execDrw at h; split at h <;> cases h <;> [exact .inr ⟨_, by simp, rfl, by simp⟩; simp]
  case skp => unfold execSkp at h; split at h <;> cases h <;> [exact .inr ⟨_, by simp, rfl, by simp⟩; simp]
  case sknp => unfold execSknp at h; split at h <;> cases h <;> [exact .inr ⟨_, by simp, rfl, by simp⟩; simp]
  case ldVxKey => unfold execLdVxKey at h; split at h <;> cases h <;> simp
  all_goals (cases h; simp)

end Sys2Proof.Machine
end

