-- ==== Sys2Proof/Laws/PerInstr.lean ====
section
/-! SUPPORT. The family of laws over the instructions, one lemma per constructor: the word of the instruction selects a row
of the opcode map (spec/30_encoding.md R75), and that row reads the instruction back. -/

namespace Sys2Proof.Laws.Encoding

/-- The instruction's word selects a row of the opcode map, and the row reads the instruction back from it. -/
def Statement (i : Instr) : Prop :=
  ∃ r ∈ opcodeMap, r.selectedBy (encode i) = true ∧ r.instr (encode i) = i

/-- By the number of the row. -/
theorem of_row {i : Instr} (k : Nat) (hk : k < opcodeMap.length) (hs : encode i &&& opcodeMap[k].mask = opcodeMap[k].pattern)
    (hr : opcodeMap[k].instr (encode i) = i) : Statement i :=
  ⟨opcodeMap[k], List.getElem_mem hk, beq_iff_eq.mpr hs, hr⟩

theorem cls : Statement .cls :=
  of_row 0 (by decide) rfl rfl

theorem ret : Statement .ret :=
  of_row 1 (by decide) rfl rfl

theorem jp (nnn : Addr) : Statement (.jp nnn) :=
  of_row 2 (by decide) ((mask_F000_iff _ _ rfl).mpr (by simp [encode]; rfl)) (by simp [opcodeMap, opcodeMapLow, opcodeMapAlu, opcodeMapHigh, opcodeMapFn, encode])

theorem call (nnn : Addr) : Statement (.call nnn) :=
  of_row 3 (by decide) ((mask_F000_iff _ _ rfl).mpr (by simp [encode]; rfl)) (by simp [opcodeMap, opcodeMapLow, opcodeMapAlu, opcodeMapHigh, opcodeMapFn, encode])

theorem seImm (x : Reg) (kk : Byte) : Statement (.seImm x kk) :=
  of_row 4 (by decide) ((mask_F000_iff _ _ rfl).mpr (by simp [encode]; rfl)) (by simp [opcodeMap, opcodeMapLow, opcodeMapAlu, opcodeMapHigh, opcodeMapFn, encode])

theorem sneImm (x : Reg) (kk : Byte) : Statement (.sneImm x kk) :=
  of_row 5 (by decide) ((mask_F000_iff _ _ rfl).mpr (by simp [encode]; rfl)) (by simp [opcodeMap, opcodeMapLow, opcodeMapAlu, opcodeMapHigh, opcodeMapFn, encode])

theorem seReg (x y : Reg) : Statement (.seReg x y) :=
  of_row 6 (by decide) ((mask_F000_iff _ _ rfl).mpr (by simp [encode]; rfl)) (by simp [opcodeMap, opcodeMapLow, opcodeMapAlu, opcodeMapHigh, opcodeMapFn, encode])

theorem ldImm (x : Reg) (kk : Byte) : Statement (.ldImm x kk) :=
  of_row 7 (by decide) ((mask_F000_iff _ _ rfl).mpr (by simp [encode]; rfl)) (by simp [opcodeMap, opcodeMapLow, opcodeMapAlu, opcodeMapHigh, opcodeMapFn, encode])

theorem addImm (x : Reg) (kk : Byte) : Statement (.addImm x kk) :=
  of_row 8 (by decide) ((mask_F000_iff _ _ rfl).mpr (by simp [encode]; rfl)) (by simp [opcodeMap, opcodeMapLow, opcodeMapAlu, opcodeMapHigh, opcodeMapFn, encode])

theorem ldReg (x y : Reg) : Statement (.ldReg x y) :=
  of_row 9 (by decide) ((mask_F00F_iff _ _ rfl).mpr (by simp [encode]; decide)) (by simp [opcodeMap, opcodeMapLow, opcodeMapAlu, opcodeMapHigh, opcodeMapFn, encode])

theorem orReg (x y : Reg) : Statement (.orReg x y) :=
  of_row 10 (by decide) ((mask_F00F_iff _ _ rfl).mpr (by simp [encode]; decide)) (by simp [opcodeMap, opcodeMapLow, opcodeMapAlu, opcodeMapHigh, opcodeMapFn, encode])

theorem andReg (x y : Reg) : Statement (.andReg x y) :=
  of_row 11 (by decide) ((mask_F00F_iff _ _ rfl).mpr (by simp [encode]; decide)) (by simp [opcodeMap, opcodeMapLow, opcodeMapAlu, opcodeMapHigh, opcodeMapFn, encode])

theorem xorReg (x y : Reg) : Statement (.xorReg x y) :=
  of_row 12 (by decide) ((mask_F00F_iff _ _ rfl).mpr (by simp [encode]; decide)) (by simp [opcodeMap, opcodeMapLow, opcodeMapAlu, opcodeMapHigh, opcodeMapFn, encode])

theorem addReg (x y : Reg) : Statement (.addReg x y) :=
  of_row 13 (by decide) ((mask_F00F_iff _ _ rfl).mpr (by simp [encode]; decide)) (by simp [opcodeMap, opcodeMapLow, opcodeMapAlu, opcodeMapHigh, opcodeMapFn, encode])

theorem subReg (x y : Reg) : Statement (.subReg x y) :=
  of_row 14 (by decide) ((mask_F00F_iff _ _ rfl).mpr (by simp [encode]; decide)) (by simp [opcodeMap, opcodeMapLow, opcodeMapAlu, opcodeMapHigh, opcodeMapFn, encode])

theorem shr (x y : Reg) : Statement (.shr x y) :=
  of_row 15 (by decide) ((mask_F00F_iff _ _ rfl).mpr (by simp [encode]; decide)) (by simp [opcodeMap, opcodeMapLow, opcodeMapAlu, opcodeMapHigh, opcodeMapFn, encode])

theorem subnReg (x y : Reg) : Statement (.subnReg x y) :=
  of_row 16 (by decide) ((mask_F00F_iff _ _ rfl).mpr (by simp [encode]; decide)) (by simp [opcodeMap, opcodeMapLow, opcodeMapAlu, opcodeMapHigh, opcodeMapFn, encode])

theorem shl (x y : Reg) : Statement (.shl x y) :=
  of_row 17 (by decide) ((mask_F00F_iff _ _ rfl).mpr (by simp [encode]; decide)) (by simp [opcodeMap, opcodeMapLow, opcodeMapAlu, opcodeMapHigh, opcodeMapFn, encode])

theorem sneReg (x y : Reg) : Statement (.sneReg x y) :=
  of_row 18 (by decide) ((mask_F000_iff _ _ rfl).mpr (by simp [encode]; rfl)) (by simp [opcodeMap, opcodeMapLow, opcodeMapAlu, opcodeMapHigh, opcodeMapFn, encode])

theorem ldI (nnn : Addr) : Statement (.ldI nnn) :=
  of_row 19 (by decide) ((mask_F000_iff _ _ rfl).mpr (by simp [encode]; rfl)) (by simp [opcodeMap, opcodeMapLow, opcodeMapAlu, opcodeMapHigh, opcodeMapFn, encode])

theorem jpV0 (nnn : Addr) : Statement (.jpV0 nnn) :=
  of_row 20 (by decide) ((mask_F000_iff _ _ rfl).mpr (by simp [encode]; rfl)) (by simp [opcodeMap, opcodeMapLow, opcodeMapAlu, opcodeMapHigh, opcodeMapFn, encode])

theorem rnd (x : Reg) (kk : Byte) : Statement (.rnd x kk) :=
  of_row 21 (by decide) ((mask_F000_iff _ _ rfl).mpr (by simp [encode]; rfl)) (by simp [opcodeMap, opcodeMapLow, opcodeMapAlu, opcodeMapHigh, opcodeMapFn, encode])

theorem drw (x y : Reg) (n : Nibble) : Statement (.drw x y n) :=
  of_row 22 (by decide) ((mask_F000_iff _ _ rfl).mpr (by simp [encode]; rfl)) (by simp [opcodeMap, opcodeMapLow, opcodeMapAlu, opcodeMapHigh, opcodeMapFn, encode])

theorem skp (x : Reg) : Statement (.skp x) :=
  of_row 23 (by decide) ((mask_F0FF_iff _ _ rfl).mpr (by simp [encode]; decide)) (by simp [opcodeMap, opcodeMapLow, opcodeMapAlu, opcodeMapHigh, opcodeMapFn, encode])

theorem sknp (x : Reg) : Statement (.sknp x) :=
  of_row 24 (by decide) ((mask_F0FF_iff _ _ rfl).mpr (by simp [encode]; decide)) (by simp [opcodeMap, opcodeMapLow, opcodeMapAlu, opcodeMapHigh, opcodeMapFn, encode])

theorem ldVxDt (x : Reg) : Statement (.ldVxDt x) :=
  of_row 25 (by decide) ((mask_F0FF_iff _ _ rfl).mpr (by simp [encode]; decide)) (by simp [opcodeMap, opcodeMapLow, opcodeMapAlu, opcodeMapHigh, opcodeMapFn, encode])

theorem ldVxKey (x : Reg) : Statement (.ldVxKey x) :=
  of_row 26 (by decide) ((mask_F0FF_iff _ _ rfl).mpr (by simp [encode]; decide)) (by simp [opcodeMap, opcodeMapLow, opcodeMapAlu, opcodeMapHigh, opcodeMapFn, encode])

theorem ldDtVx (x : Reg) : Statement (.ldDtVx x) :=
  of_row 27 (by decide) ((mask_F0FF_iff _ _ rfl).mpr (by simp [encode]; decide)) (by simp [opcodeMap, opcodeMapLow, opcodeMapAlu, opcodeMapHigh, opcodeMapFn, encode])

theorem ldStVx (x : Reg) : Statement (.ldStVx x) :=
  of_row 28 (by decide) ((mask_F0FF_iff _ _ rfl).mpr (by simp [encode]; decide)) (by simp [opcodeMap, opcodeMapLow, opcodeMapAlu, opcodeMapHigh, opcodeMapFn, encode])

theorem addI (x : Reg) : Statement (.addI x) :=
  of_row 29 (by decide) ((mask_F0FF_iff _ _ rfl).mpr (by simp [encode]; decide)) (by simp [opcodeMap, opcodeMapLow, opcodeMapAlu, opcodeMapHigh, opcodeMapFn, encode])

theorem ldFont (x : Reg) : Statement (.ldFont x) :=
  of_row 30 (by decide) ((mask_F0FF_iff _ _ rfl).mpr (by simp [encode]; decide)) (by simp [opcodeMap, opcodeMapLow, opcodeMapAlu, opcodeMapHigh, opcodeMapFn, encode])

theorem ldBcd (x : Reg) : Statement (.ldBcd x) :=
  of_row 31 (by decide) ((mask_F0FF_iff _ _ rfl).mpr (by simp [encode]; decide)) (by simp [opcodeMap, opcodeMapLow, opcodeMapAlu, opcodeMapHigh, opcodeMapFn, encode])

theorem stRegs (x : Reg) : Statement (.stRegs x) :=
  of_row 32 (by decide) ((mask_F0FF_iff _ _ rfl).mpr (by simp [encode]; decide)) (by simp [opcodeMap, opcodeMapLow, opcodeMapAlu, opcodeMapHigh, opcodeMapFn, encode])

theorem ldRegs (x : Reg) : Statement (.ldRegs x) :=
  of_row 33 (by decide) ((mask_F0FF_iff _ _ rfl).mpr (by simp [encode]; decide)) (by simp [opcodeMap, opcodeMapLow, opcodeMapAlu, opcodeMapHigh, opcodeMapFn, encode])

end Sys2Proof.Laws.Encoding
end

