-- ==== Sys2Proof/Laws/Run.lean ====
section
/-! SUPPORT. Runs with key writes: what a key write keeps, how a run is put together, and the induction over a run, once. -/

namespace Sys2Proof.Machine

@[simp] theorem State.setKeys_keys (s : State) (k : Keypad) : (s.setKeys k).keys = k := rfl

@[simp] theorem State.setKeys_self (s : State) : s.setKeys s.keys = s := rfl

/-- A key write keeps everything but the keypad. -/
@[simp] theorem State.setKeys_keeps (s : State) (k : Keypad) :
    (s.setKeys k).v = s.v ∧ (∀ r, (s.setKeys k).reg r = s.reg r) ∧ (s.setKeys k).i = s.i ∧ (s.setKeys k).pc = s.pc ∧
    (s.setKeys k).sp = s.sp ∧ (s.setKeys k).stack = s.stack ∧ (∀ j, (s.setKeys k).stackAt j = s.stackAt j) ∧
    (s.setKeys k).dt = s.dt ∧ (s.setKeys k).st = s.st ∧ (s.setKeys k).fb = s.fb ∧
    (∀ px py, (s.setKeys k).pixel px py = s.pixel px py) ∧ (s.setKeys k).mem = s.mem ∧
    (∀ a, (s.setKeys k).readMem a = s.readMem a) ∧ (s.setKeys k).pend = s.pend ∧ (s.setKeys k).faulted = s.faulted ∧
    (s.setKeys k).faultCause = s.faultCause ∧ (s.setKeys k).faultPc = s.faultPc ∧ (s.setKeys k).faultOp = s.faultOp ∧
    (s.setKeys k).tone = s.tone ∧ (s.setKeys k).unk = s.unk ∧ (s.setKeys k).unkOp = s.unkOp ∧ (s.setKeys k).draw = s.draw ∧
    (s.setKeys k).spec = s.spec ∧ (s.setKeys k).rndDraws = s.rndDraws ∧ (s.setKeys k).fetchOp = s.fetchOp ∧
    (s.setKeys k).atEnd = s.atEnd ∧ (s.setKeys k).status = s.status ∧ (s.setKeys k).ended = s.ended := by
  and_intros <;> intros <;> rfl

@[simp] theorem State.setKeys_executes (s : State) (k : Keypad) : (s.setKeys k).Executes ↔ s.Executes := Iff.rfl

/-- A key write keeps the invariant, which does not speak of the keypad. -/
theorem State.Inv.setKeys {s : State} (h : s.Inv) (k : Keypad) : (s.setKeys k).Inv :=
  ⟨h.specLegal, h.memWf, h.memInSpace, h.fbWf, h.fbOnScreen, h.fbBits, h.spInRange, h.stackInRange, h.pcInRange,
    h.pendInRange, h.recordEmpty, h.recordFull, h.faultedIdle, h.oneReport⟩

theorem State.ended_iff {s : State} : s.ended = true ↔ s.faulted = true ∨ s.pend.toNat ≤ s.pc.toNat := by
  simp [State.ended, State.atEnd]

@[simp] theorem runWithKeys_nil (s : State) : runWithKeys [] s = .next s := rfl

/-- A run whose first step answers a state goes on from that state. -/
theorem runWithKeys_cons {s t : State} {k : Keypad} (h : step (s.setKeys k) = .next t) (rest : List Keypad) :
    runWithKeys (k :: rest) s = runWithKeys rest t := by
  simp [runWithKeys, stepWithKeys, h]

/-- A run that answers a state made its first step and went on from there. -/
theorem runWithKeys_cons_eq_next {s u : State} {k : Keypad} {rest : List Keypad} :
    runWithKeys (k :: rest) s = .next u ↔ ∃ t, step (s.setKeys k) = .next t ∧ runWithKeys rest t = .next u := by
  simp only [runWithKeys, stepWithKeys]
  cases step (s.setKeys k) <;> simp

/-- Two runs after each other are one run. -/
theorem runWithKeys_append {s t : State} {ks : List Keypad} (h : runWithKeys ks s = .next t) (ls : List Keypad) :
    runWithKeys (ks ++ ls) s = runWithKeys ls t := by
  induction ks generalizing s with
  | nil => cases h; rfl
  | cons k rest ih =>
    obtain ⟨u, hu, hr⟩ := runWithKeys_cons_eq_next.mp h
    rw [List.cons_append, runWithKeys_cons hu, ih hr]

/-- THE INDUCTION OVER A RUN: what key writes and steps keep, a run keeps. -/
theorem runWithKeys_keeps {P : State → Prop} (hkeys : ∀ s k, P s → P (s.setKeys k))
    (hstep : ∀ s t, P s → step s = .next t → P t) {ks : List Keypad} {s t : State} (hs : P s)
    (h : runWithKeys ks s = .next t) : P t := by
  induction ks generalizing s with
  | nil => cases h; exact hs
  | cons k rest ih =>
    obtain ⟨u, hu, hr⟩ := runWithKeys_cons_eq_next.mp h
    exact ih (hstep _ _ (hkeys s k hs) hu) hr

end Sys2Proof.Machine
end

