-- ==== Sys2Proof/Tests/Slice0.lean ====
section
/-! SUPPORT. The model's own tests: what is ill-formed is refused, every instruction's word decodes, single steps with the
results spec/95_test_vectors.md gives (named L1-k, L2-k), and a witness for the hypotheses of every obligation. -/

namespace Sys2Proof.Tests
open Sys2Proof Sys2Proof.Machine

/-! ## Helpers -/

/-- The start state of the vectors: the word `w` at `pc`, PEND = 0x1000, every register 0. -/
def startAt (pc : Word) (w : Nat) : State := ({ State.reset with pc := pc, pend := 0x1000 } : State).withFetchWord 16 w

/-- At the program's start. -/
def start (w : Nat) : State := startAt 0x200 w

/-- Registers set one after the other. -/
def regs (l : List (Reg × Byte)) (s : State) : State := l.foldl (fun u p => u.setReg p.1 p.2) s

/-- I, and bytes there. -/
def bytesAt (i : Word) (bs : List Byte) (s : State) : State := { s.writeMem i.toNat bs with i := i }

/-- SP, and the same return address in every entry. -/
def stacked (sp : BitVec 5) (a : Word) (s : State) : State := { s with sp := sp, stack := Vector.replicate 16 a }

/-- The timers. -/
def timers (dt st : Byte) (s : State) : State := { s with dt := dt, st := st }

/-- Keys pressed. -/
def pressed (ks : List Nat) (s : State) : State := { s with keys := Vector.ofFn fun k : Fin 16 => ks.contains k.val }

/-- Pixels set, by flat index. -/
def lit (ks : List Nat) (s : State) : State := { s with fb := ks.foldl (fun f k => Framebuffer.write f k 1) s.fb }

/-- The quirks and the screen changed. -/
def withSpec (f : PlatformSpec → PlatformSpec) (s : State) : State := { s with spec := f s.spec }

def clipping (p : PlatformSpec) : PlatformSpec := { p with quirks := { p.quirks with wrapSprites := false } }
def incrementing (p : PlatformSpec) : PlatformSpec := { p with quirks := { p.quirks with loadStoreIncrementsIndex := true } }
def shiftingVy (p : PlatformSpec) : PlatformSpec := { p with quirks := { p.quirks with shiftUsesSecondOperand := true } }
def plainJump (p : PlatformSpec) : PlatformSpec := { p with quirks := { p.quirks with jumpAddsFirstRegister := false } }

/-- The result is a next state with the property. -/
def answers (r : Result) (p : State → Bool) : Bool :=
  match r with
  | .next t => p t
  | .fault _ => false
  | .refused _ => false

/-- The record of a fault taken at `pc`. -/
def faultedWith (c : Fault) (pc : Word) (op : Option Word) (t : State) : Bool :=
  t.faulted && t.faultCause == some c && t.faultPc == pc && t.faultOp == op && t.pc == pc && !t.tone

/-! ## What WellFormed refuses -/

theorem test_wellFormed_reference : Config.referenceSpec.wellFormed = true ∧
    fontWellFormed Config.referenceSpec Config.referenceFont = true := by decide
theorem test_no_screen_width_refused : ({ Config.referenceSpec with videoWidth := 0 } : PlatformSpec).wellFormed = false := by
  decide
theorem test_no_screen_height_refused :
    ({ Config.referenceSpec with videoHeight := 0 } : PlatformSpec).wellFormed = false := by decide
theorem test_no_glyph_refused : ({ Config.referenceSpec with glyphSize := 0 } : PlatformSpec).wellFormed = false := by decide
theorem test_glyph_33_refused : ({ Config.referenceSpec with glyphSize := 33 } : PlatformSpec).wellFormed = false := by
  decide
theorem test_short_font_refused : fontWellFormed Config.referenceSpec (Config.referenceFont.take 79) = false := by decide
theorem test_program_3585_refused : programWellFormed (List.replicate 3585 0) = false := by
  rw [programWellFormed, List.length_replicate]
  decide

/-! ## Decoding: a word of every constructor, written out from the opcode map (30_encoding.md R75) -/

def decodesAll (l : List (Word × Instr)) : Bool := l.all fun p => decodeWord p.1 == .ok p.2

def wordsControl : List (Word × Instr) :=
  [(0b0000000011101110, .ret), (0b0001000100100011, .jp 0x123), (0b0010111111111110, .call 0xFFE),
   (0b0011010110101011, .seImm 0x5 0xAB), (0b0100111100000001, .sneImm 0xF 0x01), (0b0101000100100000, .seReg 0x1 0x2),
   (0b1001111111100000, .sneReg 0xF 0xE), (0b1011001100000000, .jpV0 0x300)]

def wordsAlu : List (Word × Instr) :=
  [(0b0110101000101011, .ldImm 0xA 0x2B), (0b0111000011111111, .addImm 0x0 0xFF), (0b1000000100100000, .ldReg 0x1 0x2),
   (0b1000000100100001, .orReg 0x1 0x2), (0b1000000100100010, .andReg 0x1 0x2), (0b1000000100100011, .xorReg 0x1 0x2),
   (0b1000111100000100, .addReg 0xF 0x0), (0b1000000111110101, .subReg 0x1 0xF), (0b1000001000110110, .shr 0x2 0x3),
   (0b1000000100100111, .subnReg 0x1 0x2), (0b1000010001011110, .shl 0x4 0x5), (0b1100001100001111, .rnd 0x3 0x0F)]

def wordsMemoryScreen : List (Word × Instr) :=
  [(0b1010111111111111, .ldI 0xFFF), (0b1111001000011110, .addI 0x2), (0b1111010000101001, .ldFont 0x4),
   (0b1111101000110011, .ldBcd 0xA), (0b1111111101010101, .stRegs 0xF), (0b1111001001100101, .ldRegs 0x2),
   (0b0000000011100000, .cls), (0b1101000000010010, .drw 0x0 0x1 0x2)]

def wordsKeysTimers : List (Word × Instr) :=
  [(0b1110010110011110, .skp 0x5), (0b1110010110100001, .sknp 0x5), (0b1111001100000111, .ldVxDt 0x3),
   (0b1111001000001010, .ldVxKey 0x2), (0b1111000000010101, .ldDtVx 0x0), (0b1111000000011000, .ldStVx 0x0)]

theorem test_decode_control : decodesAll wordsControl = true := by decide
theorem test_decode_alu : decodesAll wordsAlu = true := by decide
theorem test_decode_memory_screen : decodesAll wordsMemoryScreen = true := by decide
theorem test_decode_keys_timers : decodesAll wordsKeysTimers = true := by decide

/-- L2-E5: the unknown words, and the ignored n of L2-T18. -/
theorem test_decode_unknown :
    ([0x0000, 0x01E0, 0x02EE, 0x8008, 0x800F, 0xE000, 0xE09F, 0xF000, 0xF0FF] : List Word).all
      (fun w => decodeWord w == .error (.unknown w)) = true ∧
    decodeWord 0x10EE = .ok (.jp 0x0EE) ∧ decodeWord 0x5121 = .ok (.seReg 1 2) := by decide

/-- One byte is no instruction. -/
theorem test_decode_truncated : decodeBytes [0x60] = .error .truncated := by decide

/-- The table's word numbering: the second byte of 0x6001 is its bits 7:0. -/
theorem test_table_word : decodeTableWord 16 0x6001 = some (.ldImm 0 1) ∧ decodeTableWord 16 0x8008 = none := by decide

/-! ## The step -/

/-- L2-E1. -/
theorem test_finished : answers (step (timers 3 3 { State.reset with pc := 0x20C, pend := 0x20C }))
    (fun t => t.pc == 0x20C && t.dt == 3 && t.st == 3 && !t.tone && t.status == .finished) = true := by decide
/-- L2-E2. -/
theorem test_pc_range : answers (step { State.reset with pc := 0xFFF, pend := 0x1000 })
    (faultedWith .pcRange 0xFFF none) = true := by decide
/-- L2-E3. -/
theorem test_last_word : answers (step (startAt 0xFFE 0x6001)) (fun t => t.reg 0 == 1 && t.pc == 0x1000 && t.atEnd) = true := by
  decide
/-- L2-E4. -/
theorem test_unknown : answers (step (timers 3 0 (start 0x0123)))
    (fun t => t.unk && t.unkOp == 0x0123 && t.pc == 0x202 && t.dt == 2 && !t.draw) = true := by decide
/-- L2-E7. -/
theorem test_tick_and_tone : answers (step (timers 1 1 (start 0x6000)))
    (fun t => t.dt == 0 && t.st == 0 && t.tone) = true := by decide
/-- L2-E8. -/
theorem test_faulted_idles : answers (step (timers 5 5 { start 0x6001 with faulted := true, tone := true }))
    (fun t => t.reg 0 == 0 && t.dt == 5 && t.st == 5 && !t.tone) = true := by decide
/-- L2-E9. -/
theorem test_odd_pc : answers (step (startAt 0x201 0x6007)) (fun t => t.reg 0 == 7 && t.pc == 0x203) = true := by decide

/-! ## Control transfer -/

/-- L2-T1. -/
theorem test_ret_underflow : answers (step (timers 5 0 (start 0x00EE)))
    (fun t => faultedWith .stackUnderflow 0x200 (some 0x00EE) t && t.sp == 0 && t.dt == 5) = true := by decide
/-- L2-T2. -/
theorem test_ret : answers (step (stacked 16 0xABC (start 0x00EE))) (fun t => t.sp == 15 && t.pc == 0xABC) = true := by decide
/-- L2-T3. -/
theorem test_call : answers (step (stacked 15 0 (startAt 0x300 0x2400)))
    (fun t => t.stackAt 15 == 0x302 && t.sp == 16 && t.pc == 0x400 && t.stackAt 14 == 0) = true := by decide
/-- L2-T4. -/
theorem test_call_overflow : answers (step (stacked 16 0x111 (startAt 0x300 0x2400)))
    (fun t => faultedWith .stackOverflow 0x300 (some 0x2400) t && t.sp == 16 && t.stackAt 15 == 0x111) = true := by decide
/-- L2-T6. -/
theorem test_jump_to_itself : answers (step (timers 2 0 (start 0x1200))) (fun t => t.pc == 0x200 && t.dt == 1) = true := by
  decide
/-- L2-T8. -/
theorem test_jump_with_offset : answers (step (regs [(0, 0xFF)] (start 0xBFFF)))
    (fun t => t.pc == 0x10FE && t.atEnd) = true := by decide
/-- L2-T9. -/
theorem test_jump_plain : answers (step (withSpec plainJump (regs [(0, 0xFF)] (start 0xBFFF)))) (fun t => t.pc == 0xFFF) = true := by
  decide
/-- L2-T11, L2-T12. -/
theorem test_skip_equal_immediate :
    answers (step (regs [(3, 5)] (startAt 0x208 0x3305))) (fun t => t.pc == 0x20C) = true ∧
    answers (step (regs [(3, 6)] (startAt 0x208 0x3305))) (fun t => t.pc == 0x20A) = true := by decide
/-- L2-T15, L2-T16. -/
theorem test_skip_unequal_immediate :
    answers (step (regs [(3, 6)] (startAt 0x208 0x4305))) (fun t => t.pc == 0x20C) = true ∧
    answers (step (regs [(3, 5)] (startAt 0x208 0x4305))) (fun t => t.pc == 0x20A) = true := by decide
/-- L2-T18, L2-T19. -/
theorem test_skip_equal_registers :
    answers (step (regs [(1, 0x7F), (2, 0x7F)] (startAt 0x300 0x5121))) (fun t => t.pc == 0x304 && !t.unk) = true ∧
    answers (step (regs [(1, 1), (2, 2)] (startAt 0x300 0x512F))) (fun t => t.pc == 0x302) = true := by decide
/-- L2-T21, L2-T22. -/
theorem test_skip_unequal_registers :
    answers (step (regs [(1, 1), (2, 2)] (startAt 0x300 0x9120))) (fun t => t.pc == 0x304) = true ∧
    answers (step (startAt 0x300 0x911F)) (fun t => t.pc == 0x302) = true := by decide

/-! ## Registers and ALU -/

/-- L2-A1. -/
theorem test_load_immediate : answers (step (start 0x6A2B)) (fun t => t.reg 0xA == 0x2B && t.pc == 0x202) = true := by decide
/-- L2-A3. -/
theorem test_add_immediate_no_flag : answers (step (regs [(0, 0xFF), (VF, 0x77)] (start 0x7001)))
    (fun t => t.reg 0 == 0 && t.reg VF == 0x77) = true := by decide
/-- L2-A6. -/
theorem test_copy : answers (step (regs [(1, 0x44)] (start 0x8010))) (fun t => t.reg 0 == 0x44) = true := by decide
/-- L2-A7. -/
theorem test_or : answers (step (regs [(0, 0xF0), (1, 0x0F), (VF, 1)] (start 0x8011)))
    (fun t => t.reg 0 == 0xFF && t.reg VF == 1) = true := by decide
/-- L2-A8. -/
theorem test_and : answers (step (regs [(0, 0xF0), (1, 0x3C)] (start 0x8012))) (fun t => t.reg 0 == 0x30) = true := by decide
/-- L2-A9. -/
theorem test_xor : answers (step (regs [(0, 0xFF), (1, 0x0F)] (start 0x8013))) (fun t => t.reg 0 == 0xF0) = true := by decide
/-- L1-2. -/
theorem test_add_carry : answers (step (regs [(0, 0xFF), (1, 1)] (start 0x8014)))
    (fun t => t.reg 0 == 0 && t.reg VF == 1) = true := by decide
/-- L2-A15. -/
theorem test_add_into_flag : answers (step (regs [(VF, 0x80), (1, 0x80)] (start 0x8F14))) (fun t => t.reg VF == 1) = true := by
  decide
/-- L1-3. -/
theorem test_subtract_wraps : answers (step (regs [(0, 5), (1, 0xA)] (start 0x8015)))
    (fun t => t.reg 0 == 0xFB && t.reg VF == 0) = true := by decide
/-- L2-A17. -/
theorem test_subtract_equal : answers (step (regs [(0, 0x33), (1, 0x33)] (start 0x8015)))
    (fun t => t.reg 0 == 0 && t.reg VF == 0) = true := by decide
/-- L2-A22. -/
theorem test_shift_right : answers (step (regs [(2, 1), (3, 0xFF)] (start 0x8236)))
    (fun t => t.reg 2 == 0 && t.reg VF == 1) = true := by decide
/-- L2-A23. -/
theorem test_shift_right_vy : answers (step (withSpec shiftingVy (regs [(3, 0x81)] (start 0x8236))))
    (fun t => t.reg 2 == 0x40 && t.reg VF == 1 && t.reg 3 == 0x81) = true := by decide
/-- L2-A25. -/
theorem test_subtract_reversed : answers (step (regs [(0, 5), (1, 0xA)] (start 0x8017)))
    (fun t => t.reg 0 == 5 && t.reg VF == 1) = true := by decide
/-- L2-A26. -/
theorem test_subtract_reversed_wraps : answers (step (regs [(0, 0xA), (1, 5)] (start 0x8017)))
    (fun t => t.reg 0 == 0xFB && t.reg VF == 0) = true := by decide
/-- L2-A28. -/
theorem test_shift_left : answers (step (regs [(4, 0xC1)] (start 0x840E)))
    (fun t => t.reg 4 == 0x82 && t.reg VF == 1) = true := by decide
/-- L2-A31. -/
theorem test_shift_left_vy : answers (step (withSpec shiftingVy (regs [(5, 0x81)] (start 0x845E))))
    (fun t => t.reg 4 == 2 && t.reg VF == 1) = true := by decide
/-- L2-A32 and L2-A33, for every random byte. -/
theorem test_random : ∃ t u, step (start 0xC30F) = .next t ∧ t.reg 3 = (Config.rndByte 0 &&& 0x0F) ∧ t.rndDraws = 1 ∧
    step (start 0xC300) = .next u ∧ u.reg 3 = 0 :=
  ⟨_, _, rfl, rfl, rfl, rfl, BitVec.and_zero⟩

/-! ## Index register and memory -/

/-- L2-M1. -/
theorem test_load_index : answers (step (start 0xAFFF)) (fun t => t.i == 0xFFF) = true := by decide
/-- L2-M3. -/
theorem test_add_index : answers (step (regs [(0, 1)] { start 0xF01E with i := 0xFFF }))
    (fun t => t.i == 0x1000 && t.reg VF == 0) = true := by decide
/-- L2-M4. -/
theorem test_add_index_wraps : answers (step (regs [(0, 1)] { start 0xF01E with i := 0xFFFF })) (fun t => t.i == 0) = true := by
  decide
/-- L2-M6, L2-M7. -/
theorem test_font : answers (step (regs [(4, 0xF)] (start 0xF429))) (fun t => t.i == 0x4B) = true ∧
    answers (step (regs [(4, 0x10)] (start 0xF429))) (fun t => t.i == 0x50) = true := by decide
/-- L2-M12. -/
theorem test_bcd : answers (step (regs [(0, 0x80)] { start 0xF033 with i := 0xFFD }))
    (fun t => t.readMem 0xFFD == 1 && t.readMem 0xFFE == 2 && t.readMem 0xFFF == 8) = true := by decide
/-- L2-M13. -/
theorem test_bcd_range : answers (step (regs [(0, 0x80)] { start 0xF033 with i := 0xFFE }))
    (fun t => faultedWith .memRange 0x200 (some 0xF033) t && t.readMem 0xFFE == 0) = true := by decide
/-- L2-M18. -/
theorem test_store_registers : answers (step (withSpec incrementing (regs [(0, 0x11), (1, 0x22)] { start 0xF155 with i := 0x300 })))
    (fun t => t.readMem 0x300 == 0x11 && t.readMem 0x301 == 0x22 && t.i == 0x302) = true := by decide
/-- L2-M15. -/
theorem test_store_registers_range : answers (step (regs [(0, 0x11)] { start 0xFF55 with i := 0xFF1 }))
    (fun t => faultedWith .memRange 0x200 (some 0xFF55) t && t.readMem 0xFF1 == 0) = true := by decide
/-- L2-M20. -/
theorem test_load_registers : answers (step (regs [(3, 0x99)] (bytesAt 0x300 [2, 5, 5] (start 0xF265))))
    (fun t => t.reg 0 == 2 && t.reg 1 == 5 && t.reg 2 == 5 && t.reg 3 == 0x99 && t.i == 0x300) = true := by decide
/-- L2-M21. -/
theorem test_load_registers_range : answers (step (regs [(0, 7)] { start 0xF065 with i := 0x1000 }))
    (fun t => faultedWith .memRange 0x200 (some 0xF065) t && t.reg 0 == 7) = true := by decide

/-! ## Display -/

/-- L2-S1. -/
theorem test_clear : answers (step (regs [(VF, 7)] (lit [325] (start 0x00E0))))
    (fun t => t.pixel 5 5 == 0 && t.reg VF == 7 && !t.draw) = true := by decide
/-- L2-S9, L2-S10. -/
theorem test_draw_wraps_and_clips :
    answers (step (regs [(1, 0x1F)] (bytesAt 0x300 [0x80, 0x80] (start 0xD012))))
      (fun t => t.pixel 0 31 == 1 && t.pixel 0 0 == 1 && t.reg VF == 0 && t.draw) = true ∧
    answers (step (withSpec clipping (regs [(1, 0x1F)] (bytesAt 0x300 [0x80, 0x80] (start 0xD012)))))
      (fun t => t.pixel 0 31 == 1 && t.pixel 0 0 == 0) = true := by decide
/-- L2-S14, L2-S8. -/
theorem test_draw_collides :
    answers (step (withSpec (fun p => { p with videoWidth := 4 }) (bytesAt 0x300 [0xFF] (start 0xD011))))
      (fun t => t.pixel 0 0 == 0 && t.pixel 3 0 == 0 && t.reg VF == 1) = true ∧
    answers (step (lit [0] (bytesAt 0x300 [0x80, 0x80] (start 0xD012))))
      (fun t => t.pixel 0 0 == 0 && t.pixel 0 1 == 1 && t.reg VF == 1) = true := by decide

/-! ## Keypad and timers -/

/-- L2-K1, L2-K5. -/
theorem test_skip_pressed :
    answers (step (pressed [7] (regs [(5, 7)] (startAt 0x220 0xE59E)))) (fun t => t.pc == 0x224) = true ∧
    answers (step (regs [(5, 0x10)] (start 0xE59E))) (faultedWith .keyRange 0x200 (some 0xE59E)) = true := by decide
/-- L2-K3, L2-K6. -/
theorem test_skip_not_pressed :
    answers (step (regs [(5, 7)] (startAt 0x220 0xE5A1))) (fun t => t.pc == 0x224) = true ∧
    answers (step (regs [(5, 0xFF)] (start 0xE5A1))) (faultedWith .keyRange 0x200 (some 0xE5A1)) = true := by decide
/-- L2-K7, L2-K8. -/
theorem test_wait_key :
    answers (step (timers 2 0 (start 0xF20A))) (fun t => t.pc == 0x200 && t.reg 2 == 0 && t.dt == 1) = true ∧
    answers (step (pressed [3, 9] (start 0xF20A))) (fun t => t.pc == 0x202 && t.reg 2 == 3) = true := by decide
/-- L1-10, its last wait and the step in which a key is pressed. -/
theorem test_run_takes_key_writes :
    answers (runWithKeys [Keypad.none, (pressed [3, 9] State.reset).keys] (start 0xF20A))
      (fun t => t.pc == 0x202 && t.reg 2 == 3) = true := by decide
/-- L2-K10. -/
theorem test_read_delay : answers (step (timers 0x10 0 (start 0xF307))) (fun t => t.reg 3 == 0x10 && t.dt == 0xF) = true := by
  decide
/-- L2-K12. -/
theorem test_set_delay : answers (step (regs [(0, 5)] (start 0xF015))) (fun t => t.dt == 4) = true := by decide
/-- L2-K14, L2-K16. -/
theorem test_set_sound : answers (step (regs [(0, 5)] (start 0xF018))) (fun t => t.st == 4 && !t.tone) = true ∧
    answers (step (timers 0 3 (start 0xF018))) (fun t => t.st == 0 && t.tone) = true := by decide

/-! ## Witnesses: states and operands that meet the hypotheses of each obligation, at the ends of their ranges -/

/-- The words of the decode tests select their rows: the hypothesis of every `RowDecodes`, at each mask. -/
theorem witness_RowDecodes : (0x00EE#16 &&& 0xFFFF = 0x00EE ∧ 0x00E0#16 &&& 0xFFFF = 0x00E0) ∧
    [0x1#4, 0x2, 0x3, 0x4, 0x5, 0x6, 0x7, 0x9, 0xA, 0xB, 0xC, 0xD].all
      (fun c => packNNN c 0xFFF &&& 0xF000 == packNNN c 0x000) = true ∧
    [0x0#4, 0x1, 0x2, 0x3, 0x4, 0x5, 0x6, 0x7, 0xE].all
      (fun n => packXYN 0x8 0xF 0xF n &&& 0xF00F == packXYN 0x8 0 0 n) = true ∧
    [0x9E#8, 0xA1].all (fun k => packXKK 0xE 0xF k &&& 0xF0FF == packXKK 0xE 0 k) = true ∧
    [0x07#8, 0x0A, 0x15, 0x18, 0x1E, 0x29, 0x33, 0x55, 0x65].all
      (fun k => packXKK 0xF 0xF k &&& 0xF0FF == packXKK 0xF 0 k) = true := by decide

theorem witness_EncodeOfDecodeIsTheWord : decodeWord 0x5127 = .ok (.seReg 1 2) ∧ encode (.seReg 1 2) = 0x5120 ∧
    decodeWord 0x9FFF = .ok (.sneReg 0xF 0xF) ∧ decodeWord 0xDFFF = .ok (.drw 0xF 0xF 0xF) := by decide

/-- A step without a fault, and one with a fault. -/
theorem witness_StepRunsTheDecodedInstruction :
    ((start 0x8014).Executes ∧ decodeWord (start 0x8014).fetchOp = .ok (.addReg 0 1) ∧
      answers (exec (.addReg 0 1) (start 0x8014)) (!·.faulted) = true) ∧
    ((start 0x00EE).Executes ∧ decodeWord (start 0x00EE).fetchOp = .ok .ret ∧
      answers (exec .ret (start 0x00EE)) (·.faulted) = true) :=
  ⟨⟨⟨rfl, by decide, by decide⟩, by decide, by decide⟩, ⟨rfl, by decide, by decide⟩, by decide, by decide⟩

/-- The last address that executes. -/
theorem witness_Executes : (startAt 0xFFE 0x6001).Executes := ⟨rfl, by decide, by decide⟩

theorem witness_UnknownOpcodeIsReportedAndPassed : (start 0x0FFF).Executes ∧ (start 0x0FFF).fetchOp = 0x0FFF ∧
    decodeWord 0x0FFF = .error (.unknown 0x0FFF) := ⟨⟨rfl, by decide, by decide⟩, by decide, by decide⟩

/-- PC = PEND, and PC = 0x1000 = PEND. -/
theorem witness_FinishedAndFaultedStepsIdle :
    ({ start 0x6001 with faulted := true } : State).faulted = true ∧ State.reset.pend.toNat ≤ State.reset.pc.toNat ∧
    ({ State.reset with pc := 0x1000, pend := 0x1000 } : State).pend.toNat ≤ 0x1000 ∧
    0x1000 ≤ ({ State.reset with pc := 0x1000, pend := 0x1000 } : State).pc.toNat := by decide

/-- PC = PEND, a latched fault, and a state in which the run goes on: each clause of R36. -/
theorem witness_StatusIsComputedFromTheState : State.reset.faulted = false ∧ State.reset.pend.toNat ≤ State.reset.pc.toNat ∧
    ({ start 0x6001 with faulted := true } : State).faulted = true ∧ (startAt 0xFFE 0x6001).faulted = false ∧
    (startAt 0xFFE 0x6001).pc.toNat < (startAt 0xFFE 0x6001).pend.toNat := by decide

/-- Both ways to have ended. -/
theorem witness_EndedRunsStayEnded : State.reset.pend.toNat ≤ State.reset.pc.toNat ∧
    ({ start 0x6001 with faulted := true } : State).faulted = true := by decide

/-- The jump to its own address, and the wait for a key with no key pressed. -/
theorem witness_HangsAreKept : (start 0x1200).Executes ∧ decodeWord (start 0x1200).fetchOp = .ok (.jp 0x200) ∧
    (start 0x1200).pc.toNat = (0x200 : Addr).toNat ∧ (start 0xFF0A).Executes ∧
    decodeWord (start 0xFF0A).fetchOp = .ok (.ldVxKey 0xF) ∧ ∃ keys : Nat → Keypad, ∀ n, keys n = Keypad.none :=
  ⟨⟨rfl, by decide, by decide⟩, by decide, by decide, ⟨rfl, by decide, by decide⟩, by decide, fun _ => Keypad.none, fun _ => rfl⟩

/-- A run of two steps from a loaded program. -/
theorem witness_EveryRunMeetsTheInvariant :
    (match load [0xF2, 0x0A] Config.referenceSpec Config.referenceFont with
      | .ok s => answers (runWithKeys [Keypad.none, (pressed [9] s).keys] s) (·.pc == 0x202)
      | .error _ => false) = true := by decide +kernel

theorem witness_FetchPastMemoryTakesPcRange (s : State) (h : s = { State.reset with pc := 0xFFF, pend := 0x1000 }) :
    s.faulted = false ∧ s.pc.toNat < s.pend.toNat ∧ 0xFFE < s.pc.toNat ∧ s.pend.toNat ≤ 0x1000 := by
  subst h
  decide

/-- Fx15, Fx18 and another instruction. -/
theorem witness_TimersCountExecutedSteps :
    [(0xF015, Instr.ldDtVx 0), (0xF018, .ldStVx 0), (0x00E0, .cls)].all (fun p =>
      decodeWord (start p.1).fetchOp == .ok p.2 && answers (step (start p.1)) (!·.faulted)) = true ∧
    (start 0xF015).Executes ∧ (start 0xF018).Executes ∧ (start 0x00E0).Executes :=
  ⟨by decide, ⟨rfl, by decide, by decide⟩, ⟨rfl, by decide, by decide⟩, ⟨rfl, by decide, by decide⟩⟩

theorem witness_NoStepWritesKeysPendOrSpec : ∃ t, step (start 0xD011) = .next t := ⟨_, rfl⟩

theorem witness_LoadedStatesMeetTheInvariant :
    (match load [0x60, 0x01] Config.referenceSpec Config.referenceFont with
      | .ok s => s.pend == 0x202
      | .error _ => false) = true := by decide +kernel

/-- A state with a program of one word, whose step executes it. -/
theorem witness_EveryStepKeepsTheInvariant : (State.reset.withFetchWord 16 0xD011).Inv ∧
    ∃ t, step (State.reset.withFetchWord 16 0xD011) = .next t := by
  refine ⟨⟨by decide, by decide, by decide, rfl, by decide, by decide, by decide, fun k => ?_, by decide, by decide, by decide,
    by decide, by decide, by decide⟩, _, rfl⟩
  show (State.reset.stackAt k).toNat ≤ 0x1000
  unfold State.stackAt
  cases h : State.reset.stack[k]? with
  | none => decide
  | some w =>
    rw [State.reset, Vector.getElem?_replicate] at h
    split at h <;> cases h
    decide

theorem witness_StackPointerNeverWraps : (stacked 16 0 (start 0x00EE)).sp.toNat ≤ 16 ∧ (stacked 16 0 (start 0x2400)).sp = 16 ∧
    (start 0x00EE).sp = 0 ∧ ∃ t, step (stacked 16 0 (start 0x00EE)) = .next t := ⟨by decide, rfl, rfl, _, rfl⟩

/-- A fault of the fetch, and a fault of an instruction. -/
theorem witness_FaultsArePrecise : (start 0x00EE).faulted = false ∧ answers (step (start 0x00EE)) (·.faulted) = true ∧
    answers (step { State.reset with pc := 0xFFF, pend := 0x1000 }) (·.faulted) = true := by decide

/-- Each listed cause, and the operand next to it that raises none. -/
theorem witness_FaultCausesAreTheListedOnes : State.reset.faulted = false ∧ State.reset.faultCause = none ∧
    answers (exec (.call 0) (stacked 16 0 State.reset)) (·.faultCause == some .stackOverflow) = true ∧
    answers (exec (.call 0) (stacked 15 0 State.reset)) (·.faultCause == none) = true ∧
    answers (exec .ret State.reset) (·.faultCause == some .stackUnderflow) = true ∧
    answers (exec .ret (stacked 1 0 State.reset)) (·.faultCause == none) = true ∧
    answers (exec (.drw 0 1 2) { State.reset with i := 0xFFF }) (·.faultCause == some .memRange) = true ∧
    answers (exec (.drw 0 1 1) { State.reset with i := 0xFFF }) (·.faultCause == none) = true ∧
    answers (exec (.drw 0 1 0) { State.reset with i := 0xFFFF }) (·.faultCause == none) = true ∧
    answers (exec (.ldBcd 0) { State.reset with i := 0xFFE }) (·.faultCause == some .memRange) = true ∧
    answers (exec (.ldBcd 0) { State.reset with i := 0xFFD }) (·.faultCause == none) = true := by decide

theorem witness_FaultCausesOfTransfersAndKeys :
    answers (exec (.stRegs 0xF) { State.reset with i := 0xFF1 }) (·.faultCause == some .memRange) = true ∧
    answers (exec (.stRegs 0xF) { State.reset with i := 0xFF0 }) (·.faultCause == none) = true ∧
    answers (exec (.ldRegs 0) { State.reset with i := 0x1000 }) (·.faultCause == some .memRange) = true ∧
    answers (exec (.ldRegs 0) { State.reset with i := 0xFFF }) (·.faultCause == none) = true ∧
    answers (exec (.skp 5) (regs [(5, 16)] State.reset)) (·.faultCause == some .keyRange) = true ∧
    answers (exec (.skp 5) (regs [(5, 15)] State.reset)) (·.faultCause == none) = true ∧
    answers (exec (.sknp 5) (regs [(5, 16)] State.reset)) (·.faultCause == some .keyRange) = true ∧
    answers (exec (.sknp 5) (regs [(5, 15)] State.reset)) (·.faultCause == none) = true ∧
    answers (exec (.jp 0) State.reset) (·.faultCause == none) = true := by decide

/-- A memory that differs from the state's, but not on the bytes Fx65 and Dxyn read. -/
theorem witness_InstructionsReachOnlyTheirBytes :
    (∀ a ∈ dataReads (.ldRegs 1) (bytesAt 0x300 [1, 2] State.reset),
      Memory.read [(0x300, 1), (0x301, 2), (0x302, 9)] a = (bytesAt 0x300 [1, 2] State.reset).readMem a) ∧
    (∀ a ∈ dataReads (.drw 0 1 1) (bytesAt 0x300 [1] State.reset),
      Memory.read [(0x300, 1), (0x301, 2)] a = (bytesAt 0x300 [1] State.reset).readMem a) ∧
    0x300 ∈ dataReads (.ldRegs 1) (bytesAt 0x300 [1, 2] State.reset) ∧
    0x302 ∈ dataWrites (.ldBcd 0) ({ State.reset with i := 0x300 } : State) ∧
    0x30F ∉ dataWrites (.stRegs 0xE) ({ State.reset with i := 0x300 } : State) := by decide

theorem witness_SeparateStoresAreReachedOnlyByTheirInstructions : reachesScreen (.skp 0) = false ∧
    reachesKeys (.drw 0 0 0) = false ∧ reachesStack .cls = false := by decide

theorem witness_ReturnPopsThePc : (stacked 1 0x202 State.reset).sp ≠ 0 ∧ (stacked 16 0x202 State.reset).sp ≠ 0 ∧
    State.reset.sp = 0 := by decide

/-- The jump to its own address. -/
theorem witness_JumpSetsThePc : (start 0x1200).Executes ∧ decodeWord (start 0x1200).fetchOp = .ok (.jp 0x200) ∧
    (start 0x1200).pc.toNat = (0x200 : Addr).toNat := ⟨⟨rfl, by decide, by decide⟩, by decide, by decide⟩

theorem witness_CallPushesTheReturnAddress : State.reset.sp.toNat < 16 ∧ (stacked 15 0 State.reset).sp.toNat < 16 ∧
    (stacked 16 0 State.reset).sp = 16 := by decide

/-- A state between the call and the return. -/
theorem witness_CallThenReturnComesBack : (stacked 15 0 State.reset).sp.toNat < 16 ∧
    answers (exec (.call 0x300) (stacked 15 0 State.reset)) (fun t =>
      (regs [(0, 1)] t).stack == t.stack && (regs [(0, 1)] t).sp == t.sp) = true := by decide

/-- AddSetsCarry, SubtractionsSetNotBorrow and ShiftsSetTheBitShiftedOut: a destination that is not VF, and one that is. -/
theorem witness_FlagDestinations : (0 : Reg) ≠ VF ∧ (0xF : Reg) = VF := by decide

/-- The quirk clear and set. -/
theorem witness_ShiftsSetTheBitShiftedOut : ∃ v w,
    v = ((start 0x8236).reg (if (start 0x8236).spec.quirks.shiftUsesSecondOperand then 3 else 2)).toNat ∧
    w = ((withSpec shiftingVy (start 0x8236)).reg
      (if (withSpec shiftingVy (start 0x8236)).spec.quirks.shiftUsesSecondOperand then 3 else 2)).toNat := ⟨_, _, rfl, rfl⟩

theorem witness_BcdStoresThreeDigits : ({ State.reset with i := 0xFFD } : State).i.toNat + 2 ≤ 0xFFF ∧
    0xFFF < ({ State.reset with i := 0xFFE } : State).i.toNat + 2 := by decide

/-- StoreRegistersToMemory and LoadRegistersFromMemory: the last I in range, the first out of it, and the registers below and
above x. -/
theorem witness_RegisterTransfers : ({ State.reset with i := 0xFF0 } : State).i.toNat + (0xF : Reg).toNat ≤ 0xFFF ∧
    0xFFF < ({ State.reset with i := 0xFF1 } : State).i.toNat + (0xF : Reg).toNat ∧
    (0xF : Reg).toNat ≤ (0xF : Reg).toNat ∧ (0xE : Reg).toNat < (0xF : Reg).toNat := by decide

theorem witness_StoreThenLoadRoundTrips : ({ State.reset with i := 0xFF0 } : State).i.toNat + (0xF : Reg).toNat ≤ 0xFFF ∧
    answers (exec (.stRegs 0xF) { State.reset with i := 0xFF0 }) (fun t =>
      (regs [(0, 0)] t).i == 0xFF0 && (regs [(0, 0)] t).mem == t.mem) = true := by decide

/-- At the last PC whose next opcode lies in memory: Fx55 from below over both bytes, Fx33 over the second of them alone, and a
store that reaches neither. -/
theorem witness_StoredBytesAreFetchedNext : (startAt 0xFFC 0xF355).pc.toNat + 3 ≤ 0xFFF ∧
    ({ startAt 0xFFC 0xF355 with i := 0xFFC } : State).i.toNat + (3 : Reg).toNat ≤ 0xFFF ∧
    (startAt 0x200 0xF033).pc.toNat + 3 ≤ 0xFFF ∧ ({ startAt 0x200 0xF033 with i := 0x203 } : State).i.toNat + 2 ≤ 0xFFF ∧
    ({ startAt 0x200 0xF033 with i := 0xFFD } : State).i.toNat + 2 ≤ 0xFFF ∧
    ∀ s : State, ∃ byteAt : Nat → Nat, ∀ a, byteAt a = (s.readMem a).toNat :=
  ⟨by decide, by decide, by decide, by decide, by decide, fun s => ⟨fun a => (s.readMem a).toNat, fun _ => rfl⟩⟩

/-- R256: Fx33 and Fx55 over the next opcode, from I = PC + 1 and I = PC + 3. -/
theorem test_store_over_next_opcode :
    answers (exec (.ldBcd 0) (regs [(0, 0xFF)] { start 0xF033 with i := 0x201 })) (·.fetchOp == 0x0505) = true ∧
    answers (exec (.stRegs 0) (regs [(0, 0x6A)] { start 0xF055 with i := 0x203 })) (·.fetchOp == 0x006A) = true := by decide

/-- n = 0 past memory, the last row in memory, and one row too many. -/
theorem witness_DrawFlipsTheTouchedPixels : (0 : Nibble) = 0 ∧
    ({ State.reset with i := 0xFFF } : State).i.toNat + (1 : Nibble).toNat - 1 ≤ 0xFFF ∧ (2 : Nibble) ≠ 0 ∧
    0xFFF < ({ State.reset with i := 0xFFF } : State).i.toNat + (2 : Nibble).toNat - 1 := by decide

/-- A touched pixel that is set, a pixel touched twice on a narrow screen, and a sprite that finds every pixel 0. -/
theorem witness_CollisionIsAnyTouchedPixelSet :
    (∀ c ∈ (lit [0] (bytesAt 0x300 [0x80] State.reset)).fb, c.2 = 1) ∧
    (∃ k ∈ (lit [0] (bytesAt 0x300 [0x80] State.reset)).touchedPixels 0 1 1,
      Framebuffer.read (lit [0] (bytesAt 0x300 [0x80] State.reset)).fb k = 1) ∧
    (∃ k ∈ (withSpec (fun p => { p with videoWidth := 4 }) (bytesAt 0x300 [0xFF] State.reset)).touchedPixels 0 1 1,
      2 ≤ ((withSpec (fun p => { p with videoWidth := 4 }) (bytesAt 0x300 [0xFF] State.reset)).touchedPixels 0 1 1).count k) ∧
    (∀ k ∈ (bytesAt 0x300 [0xC0] State.reset).touchedPixels 0 1 1,
      Framebuffer.read (bytesAt 0x300 [0xC0] State.reset).fb k = 0 ∧
        ((bytesAt 0x300 [0xC0] State.reset).touchedPixels 0 1 1).count k = 1) :=
  ⟨by decide, ⟨0, by decide, by decide⟩, ⟨0, by decide, by decide⟩, by decide⟩

/-- WrappedSpritePlacement and ClippedSpritePlacement; L2-S14: on a screen of four columns two bits land on each pixel. -/
theorem witness_SpritePlacement : State.reset.spec.quirks.wrapSprites = true ∧
    (withSpec clipping State.reset).spec.quirks.wrapSprites = false ∧
    ((withSpec (fun p => { p with videoWidth := 4 }) (bytesAt 0x300 [0xFF] State.reset)).touchedPixels 0 1 1).count 3 = 2 := by
  decide

theorem witness_DrawTwiceRestoresTheScreen : (bytesAt 0x300 [0xC0] State.reset).fb = [] ∧
    ((bytesAt 0x300 [0xC0] State.reset).touchedPixels 0 1 1).Nodup ∧
    (bytesAt 0x300 [0xC0] State.reset).touchedPixels 0 1 1 ≠ [] := by decide

/-- The last key number and the first number past it. -/
theorem witness_KeySkips : ((regs [(5, 15)] State.reset).reg 5).toNat ≤ 15 ∧ 15 < ((regs [(5, 16)] State.reset).reg 5).toNat := by
  decide

/-- Key 15 alone is the least one, and no key at all. -/
theorem witness_WaitForKeySpins : (pressed [15] State.reset).key 15 = true ∧
    (∀ j, j < 15 → (pressed [15] State.reset).key j = false) ∧ (∀ k, k < 16 → (start 0xF20A).key k = false) ∧
    (start 0xF20A).Executes ∧ decodeWord (start 0xF20A).fetchOp = .ok (.ldVxKey 2) :=
  ⟨by decide, by decide, by decide, ⟨rfl, by decide, by decide⟩, by decide⟩

theorem witness_ReadDelayTimer : (start 0xFF07).Executes ∧ (start 0xFF07).fetchOp &&& 0xF0FF = 0xF007 ∧
    (0xF : Reg) = fieldX (start 0xFF07).fetchOp := ⟨⟨rfl, by decide, by decide⟩, by decide, by decide⟩

/-- A full program with the largest glyphs, and the empty one with the smallest screen. -/
theorem witness_LoadBuildsTheStartState :
    ((List.replicate 3584 0 : List Byte).length ≤ 3584 ∧ (List.replicate 512 0 : List Byte).length = 16 * 32) ∧
    (([] : List Byte).length ≤ 3584 ∧ 1 ≤ ({ Config.referenceSpec with videoWidth := 1 } : PlatformSpec).videoWidth ∧
      1 ≤ Config.referenceSpec.videoHeight ∧ 1 ≤ Config.referenceSpec.glyphSize ∧ Config.referenceSpec.glyphSize ≤ 32 ∧
      Config.referenceFont.length = 16 * Config.referenceSpec.glyphSize) := by
  rw [List.length_replicate, List.length_replicate]
  decide

theorem witness_OversizedProgramIsRefused : 3584 < (List.replicate 3585 0 : List Byte).length ∧
    (List.replicate 3584 0 : List Byte).length = 3584 := by
  rw [List.length_replicate, List.length_replicate]
  decide

theorem witness_ResetIsTheEmptyLoad : 0 < 65536 ∧ 65535 < 65536 := by decide

end Sys2Proof.Tests
end

/-! ## Control transfer (spec/41_control_transfer.md): the jump and the immediate skips -/

namespace Sys2Proof

/-! ### Encoding: the families whose row keeps c alone -/

theorem decodeWord_of_fieldC_1 {op : Word} (h : fieldC op = 0x1) : decodeWord op = .ok (.jp (fieldNNN op)) := by
  simp [decodeWord, h]

theorem decodeWord_of_fieldC_3 {op : Word} (h : fieldC op = 0x3) :
    decodeWord op = .ok (.seImm (fieldX op) (fieldKK op)) := by
  simp [decodeWord, h]

theorem decodeWord_of_fieldC_4 {op : Word} (h : fieldC op = 0x4) :
    decodeWord op = .ok (.sneImm (fieldX op) (fieldKK op)) := by
  simp [decodeWord, h]

end Sys2Proof

namespace Sys2Proof.Machine

/-- A row under the mask F000 decodes as its family does (R75). -/
theorem rowDecodes_F000 {p : Word} {instr : Word → Instr}
    (h : ∀ op, fieldC op = fieldC p → decodeWord op = .ok (instr op)) : RowDecodes p 0xF000 instr :=
  fun op hop => h op (fieldC_of_mask hop rfl)

/-! ### The meanings, and what they leave unchanged -/

theorem exec_jp (nnn : Addr) (s : State) : exec (.jp nnn) s = .next (s.setPc (zextAddr nnn)) := rfl

theorem exec_seImm (x : Reg) (kk : Byte) (s : State) : exec (.seImm x kk) s = .next (s.skipIf (s.reg x == kk)) := rfl

theorem exec_sneImm (x : Reg) (kk : Byte) (s : State) : exec (.sneImm x kk) s = .next (s.skipIf (s.reg x != kk)) := rfl

/-- A write of PC alone keeps to the empty footprint. -/
theorem State.setPc_within (s : State) (w : Word) : Within {} s (s.setPc w) := by
  constructor <;> simp

/-- A skip, taken or not, keeps to the empty footprint. -/
theorem State.skipIf_within (s : State) (c : Bool) : Within {} s (s.skipIf c) := by
  rw [State.skipIf_eq]
  exact s.setPc_within _

/-! ### The step of a jump -/

/-- A step that executes a known word: the meaning of its instruction, then the end of the step (R98). -/
theorem step_of_exec {s t : State} {i : Instr} (hs : s.Executes) (hi : decodeWord s.fetchOp = .ok i)
    (ht : exec i s.beginStep = .next t) : step s = .next (t.endStep s.st) := by
  rw [step_of_executes hs, execWord_of_ok hi, ht]
  rfl

/-- A jump raises no fault, so its step ends with the tick and TONE (R94, R95, R112). -/
theorem step_jp {s : State} {nnn : Addr} (hs : s.Executes) (hi : decodeWord s.fetchOp = .ok (.jp nnn)) :
    step s = .next { (s.beginStep.setPc (zextAddr nnn)).tick with tone := decide (s.st.toNat > 0) } := by
  rw [step_of_exec hs hi (exec_jp nnn _), State.endStep_of_not_faulted]
  simpa using hs.1

/-- A jump to its own address changes nothing but the timers and the per-step outputs (R112). -/
theorem step_selfJump {s : State} {nnn : Addr} (hs : s.Executes) (hi : decodeWord s.fetchOp = .ok (.jp nnn))
    (hpc : s.pc.toNat = nnn.toNat) :
    step s = .next { s.beginStep.tick with tone := decide (s.st.toNat > 0) } := by
  have htarget : zextAddr nnn = s.pc := BitVec.eq_of_toNat_eq (by rw [zextAddr_toNat, hpc])
  rw [step_jp hs hi, htarget]
  rfl

end Sys2Proof.Machine

section
open Sys2Proof Sys2Proof.Machine

/-- Settles O28: a jump is one write of PC; the step of a self-jump leaves PC, PEND, the fault flag and memory, so the same
word is fetched and executed again. -/
theorem jumpSetsThePc : Obligations.JumpSetsThePc := by
  refine ⟨rowDecodes_F000 fun _ => decodeWord_of_fieldC_1, fun s nnn => ?_, fun s nnn hs hi hpc => ?_⟩
  · exact ⟨_, exec_jp nnn s, zextAddr_toNat nnn, s.setPc_within _⟩
  · exact ⟨_, step_selfJump hs hi hpc, rfl, rfl, hs, toNat_countDown s.dt, toNat_countDown s.st⟩

/-- Settles O32: both skips are one conditional skip, and their conditions are opposite. -/
theorem immediateSkips : Obligations.ImmediateSkips := by
  refine ⟨rowDecodes_F000 fun _ => decodeWord_of_fieldC_3, rowDecodes_F000 fun _ => decodeWord_of_fieldC_4,
    fun s x kk => ⟨?_, ?_⟩⟩
  · exact ⟨_, exec_seImm x kk s, by simp, s.skipIf_within _⟩
  · exact ⟨_, exec_sneImm x kk s, by simp, s.skipIf_within _⟩

end

/-! ## Registers and ALU (spec/42_register_alu.md): the immediates, the copy and the logic -/

namespace Sys2Proof

/-! ### Encoding: families 6 and 7 keep c alone, family 8 keeps c and n -/

theorem decodeWord_of_fieldC_6 {op : Word} (h : fieldC op = 0x6) :
    decodeWord op = .ok (.ldImm (fieldX op) (fieldKK op)) := by
  simp [decodeWord, h]

theorem decodeWord_of_fieldC_7 {op : Word} (h : fieldC op = 0x7) :
    decodeWord op = .ok (.addImm (fieldX op) (fieldKK op)) := by
  simp [decodeWord, h]

theorem decodeWord_of_fieldC_8 {op : Word} (h : fieldC op = 0x8) : decodeWord op = decodeFamily8 op := by
  simp [decodeWord, h]

theorem decodeFamily8_of_fieldN_0 {op : Word} (h : fieldN op = 0x0) :
    decodeFamily8 op = .ok (.ldReg (fieldX op) (fieldY op)) := by
  simp [decodeFamily8, h]

theorem decodeFamily8_of_fieldN_1 {op : Word} (h : fieldN op = 0x1) :
    decodeFamily8 op = .ok (.orReg (fieldX op) (fieldY op)) := by
  simp [decodeFamily8, h]

theorem decodeFamily8_of_fieldN_2 {op : Word} (h : fieldN op = 0x2) :
    decodeFamily8 op = .ok (.andReg (fieldX op) (fieldY op)) := by
  simp [decodeFamily8, h]

theorem decodeFamily8_of_fieldN_3 {op : Word} (h : fieldN op = 0x3) :
    decodeFamily8 op = .ok (.xorReg (fieldX op) (fieldY op)) := by
  simp [decodeFamily8, h]

end Sys2Proof

namespace Sys2Proof.Machine

/-- A row of family 8, under the mask F00F, decodes as its n selects (R74, R75). -/
theorem rowDecodes_F00F_8 {p : Word} {instr : Word → Instr} (hp : fieldC p = 0x8)
    (h : ∀ op, fieldN op = fieldN p → decodeFamily8 op = .ok (instr op)) : RowDecodes p 0xF00F instr := fun op hop => by
  have hc : fieldC op = 0x8 := (fieldC_of_mask hop rfl).trans hp
  rw [decodeWord_of_fieldC_8 hc, h op (fieldN_of_mask hop rfl)]

/-! ### The meanings: each is one register write and the advance -/

theorem exec_ldImm (x : Reg) (kk : Byte) (s : State) : exec (.ldImm x kk) s = .next (s.setReg x kk).advance := rfl

theorem exec_addImm (x : Reg) (kk : Byte) (s : State) :
    exec (.addImm x kk) s = .next (s.setReg x (s.reg x + kk)).advance := rfl

theorem exec_ldReg (x y : Reg) (s : State) : exec (.ldReg x y) s = .next (s.setReg x (s.reg y)).advance := rfl

theorem exec_orReg (x y : Reg) (s : State) :
    exec (.orReg x y) s = .next (s.setReg x (s.reg x ||| s.reg y)).advance := rfl

theorem exec_andReg (x y : Reg) (s : State) :
    exec (.andReg x y) s = .next (s.setReg x (s.reg x &&& s.reg y)).advance := rfl

theorem exec_xorReg (x y : Reg) (s : State) :
    exec (.xorReg x y) s = .next (s.setReg x (s.reg x ^^^ s.reg y)).advance := rfl

/-- The register written reads the byte written. -/
theorem State.reg_setReg_advance (s : State) (x : Reg) (b : Byte) : (s.setReg x b).advance.reg x = b := by
  simp

/-- The advance after a register write is two bytes from the entry PC. -/
theorem State.pc_setReg_advance (s : State) (x : Reg) (b : Byte) : (s.setReg x b).advance.pc = s.pc + 2 := by
  simp

/-- A register write and the advance keep to that register: VF is written only when it is the destination. -/
theorem State.setReg_advance_within (s : State) (x : Reg) (b : Byte) :
    Within { regs := [x] } s (s.setReg x b).advance := by
  constructor
  case regs =>
    intro r hr
    have hne : r ≠ x := by simpa using hr
    simp [hne]
  all_goals simp

end Sys2Proof.Machine

section
open Sys2Proof Sys2Proof.Machine

/-- Settles O34: each is one register write; the sum of bytes is the sum modulo 256. -/
theorem loadAndAddImmediate : Obligations.LoadAndAddImmediate := by
  refine ⟨rowDecodes_F000 fun _ => decodeWord_of_fieldC_6, rowDecodes_F000 fun _ => decodeWord_of_fieldC_7,
    fun s x kk => ⟨?_, ?_⟩⟩
  · exact ⟨_, exec_ldImm x kk s, s.reg_setReg_advance x _, s.pc_setReg_advance x _, s.setReg_advance_within x _⟩
  · refine ⟨_, exec_addImm x kk s, ?_, s.pc_setReg_advance x _, s.setReg_advance_within x _⟩
    rw [State.reg_setReg_advance, BitVec.toNat_add]

/-- Settles O35: each is one register write of the entry operands, and the logic acts bit by bit. -/
theorem copyAndLogic : Obligations.CopyAndLogic := by
  refine ⟨rowDecodes_F00F_8 rfl fun _ => decodeFamily8_of_fieldN_0,
    rowDecodes_F00F_8 rfl fun _ => decodeFamily8_of_fieldN_1,
    rowDecodes_F00F_8 rfl fun _ => decodeFamily8_of_fieldN_2,
    rowDecodes_F00F_8 rfl fun _ => decodeFamily8_of_fieldN_3,
    fun s x y => ⟨?_, ?_, ?_, ?_⟩⟩
  · exact ⟨_, exec_ldReg x y s, s.reg_setReg_advance x _, s.pc_setReg_advance x _, s.setReg_advance_within x _⟩
  · refine ⟨_, exec_orReg x y s, fun k => ?_, s.pc_setReg_advance x _, s.setReg_advance_within x _⟩
    rw [State.reg_setReg_advance, BitVec.getLsbD_or]
  · refine ⟨_, exec_andReg x y s, fun k => ?_, s.pc_setReg_advance x _, s.setReg_advance_within x _⟩
    rw [State.reg_setReg_advance, BitVec.getLsbD_and]
  · refine ⟨_, exec_xorReg x y s, fun k => ?_, s.pc_setReg_advance x _, s.setReg_advance_within x _⟩
    rw [State.reg_setReg_advance, BitVec.getLsbD_xor]

end

/-! ## Index register (spec/43_index_memory.md): the load and the addition -/

namespace Sys2Proof

/-! ### Encoding: family A keeps c alone, family F keeps c and nn -/

theorem decodeWord_of_fieldC_A {op : Word} (h : fieldC op = 0xA) : decodeWord op = .ok (.ldI (fieldNNN op)) := by
  simp [decodeWord, h]

theorem decodeWord_of_fieldC_F {op : Word} (h : fieldC op = 0xF) : decodeWord op = decodeFamilyF op := by
  simp [decodeWord, h]

theorem decodeFamilyF_of_fieldKK_1E {op : Word} (h : fieldKK op = 0x1E) :
    decodeFamilyF op = .ok (.addI (fieldX op)) := by
  simp [decodeFamilyF, h]

end Sys2Proof

namespace Sys2Proof.Machine

/-- A row of family F, under the mask F0FF, decodes as its nn selects (R74, R75). -/
theorem rowDecodes_F0FF_F {p : Word} {instr : Word → Instr} (hp : fieldC p = 0xF)
    (h : ∀ op, fieldKK op = fieldKK p → decodeFamilyF op = .ok (instr op)) : RowDecodes p 0xF0FF instr := fun op hop => by
  have hc : fieldC op = 0xF := (fieldC_of_mask hop rfl).trans hp
  rw [decodeWord_of_fieldC_F hc, h op (fieldKK_of_mask hop rfl)]

/-! ### The meanings: each is one write of I and the advance -/

theorem exec_ldI (nnn : Addr) (s : State) : exec (.ldI nnn) s = .next (s.setIndex (zextAddr nnn)).advance := rfl

theorem exec_addI (x : Reg) (s : State) :
    exec (.addI x) s = .next (s.setIndex (s.i + zextByte (s.reg x))).advance := rfl

/-- I holds the word written. -/
theorem State.i_setIndex_advance (s : State) (w : Word) : (s.setIndex w).advance.i = w := by
  simp

/-- The advance after a write of I is two bytes from the entry PC. -/
theorem State.pc_setIndex_advance (s : State) (w : Word) : (s.setIndex w).advance.pc = s.pc + 2 := by
  simp

/-- A write of I and the advance keep to I: no register is written, so VF is not a flag here (R160, R161). -/
theorem State.setIndex_advance_within (s : State) (w : Word) : Within { index := true } s (s.setIndex w).advance := by
  constructor <;> simp

end Sys2Proof.Machine

section
open Sys2Proof Sys2Proof.Machine

/-- Settles O40: each is one write of I, and the sum of words is the sum modulo 65536. -/
theorem indexLoadAndAdd : Obligations.IndexLoadAndAdd := by
  refine ⟨rowDecodes_F000 fun _ => decodeWord_of_fieldC_A, rowDecodes_F0FF_F rfl fun _ => decodeFamilyF_of_fieldKK_1E,
    fun s nnn => ?_, fun s x => ?_⟩
  · refine ⟨_, exec_ldI nnn s, ?_, s.pc_setIndex_advance _, s.setIndex_advance_within _⟩
    rw [State.i_setIndex_advance, zextAddr_toNat]
  · refine ⟨_, exec_addI x s, ?_, s.pc_setIndex_advance _, s.setIndex_advance_within _⟩
    rw [State.i_setIndex_advance, BitVec.toNat_add, zextByte_toNat]

end

/-! ## Display (spec/44_display.md): the clear and the wrapped placement -/

namespace Sys2Proof.Machine

/-! ### The clear -/

/-- 00E0 is a whole word: its mask keeps every bit (R74, R75). -/
theorem rowDecodes_cls : RowDecodes 0x00E0 0xFFFF fun _ => .cls := fun op hop => by
  obtain rfl := (mask_FFFF_iff op _).mp hop
  rfl

theorem exec_cls (s : State) : exec .cls s = .next ({ s with fb := [] } : State).advance := rfl

/-- On a screen that lists no cell every pixel reads 0. -/
theorem State.pixel_of_fb_nil {s : State} (h : s.fb = []) (px py : Nat) : s.pixel px py = 0 := by
  unfold State.pixel
  rw [h, Framebuffer.read_nil]

/-- Emptying the screen and the advance keep to the screen: no flag and no output of the step is written (R180). -/
theorem State.clear_advance_within (s : State) : Within { screen := true } s ({ s with fb := [] } : State).advance := by
  constructor <;> simp [State.reg, State.readMem, State.stackAt]

/-! ### The touched pixels, bit by bit -/

/-- The k-th byte of a read, the read spelled with a default. -/
theorem Memory.getD_readBytes (m : Memory) (a : Nat) {n k : Nat} (h : k < n) :
    (Memory.readBytes m a n).getD k 0 = Memory.read m (a + k) := by
  have hk : k < (Memory.readBytes m a n).length := by rwa [Memory.length_readBytes]
  rw [List.getD_eq_getElem _ _ hk, Memory.getElem_readBytes]

/-- A draw touches a pixel once for every bit of the sprite bytes at I that lands on it (R181, R185), wrapped or clipped. -/
theorem State.count_touchedPixels (s : State) (x y : Reg) (n : Nibble) (k : Nat) :
    (s.touchedPixels x y n).count k = ((List.range n.toNat).map fun r => (List.range 8).countP fun c =>
      decide (bitTarget s.spec (s.reg x).toNat (s.reg y).toNat r (s.readMem (s.i.toNat + r)) c = some k)).sum := by
  unfold State.touchedPixels
  rw [count_spritePixels, Memory.length_readBytes]
  congr 1
  refine List.map_congr_left fun r hr => ?_
  have hbyte := Memory.getD_readBytes s.mem s.indexAddr (List.mem_range.mp hr)
  rw [hbyte, Nat.zero_add]
  rfl

/-- With wrapSprites set no bit is clipped (R182). -/
theorem place_of_wrapSprites {p : PlatformSpec} (h : p.quirks.wrapSprites = true) (vx vy c r : Nat) :
    place p vx vy c r = some ((vx + c) % p.videoWidth, (vy + r) % p.videoHeight) :=
  if_pos h

/-- With wrapSprites set every set bit has a target, both coordinates reduced (R182). -/
theorem bitTarget_eq_some_of_wrapSprites {p : PlatformSpec} (h : p.quirks.wrapSprites = true) {vx vy r : Nat} {row : Byte}
    {c k : Nat} : bitTarget p vx vy r row c = some k ↔
      row.getLsbD (7 - c) = true ∧ k = (vy + r) % p.videoHeight * p.videoWidth + (vx + c) % p.videoWidth := by
  rw [bitTarget_eq_some, place_of_wrapSprites h]
  simp [pixelIndex]

end Sys2Proof.Machine

section
open Sys2Proof Sys2Proof.Machine

/-- Settles O47: the clear empties the screen, and an empty screen reads 0 everywhere. -/
theorem clearScreenClearsEveryPixel : Obligations.ClearScreenClearsEveryPixel := by
  refine ⟨rowDecodes_cls, fun s => ⟨_, exec_cls s, fun px py => ?_, rfl, s.clear_advance_within⟩⟩
  exact State.pixel_of_fb_nil rfl px py

/-- Settles O50: a draw counts the bits by their targets, and with wrapSprites set the target of every set bit is its place
reduced in both coordinates. -/
theorem wrappedSpritePlacement : Obligations.WrappedSpritePlacement := by
  intro s x y n hwrap k
  rw [State.count_touchedPixels]
  simp only [bitTarget_eq_some_of_wrapSprites hwrap, Bool.decide_and, Bool.decide_eq_true]

end

/-! ## Timers (spec/45_keypad_timers.md): the read of the delay timer -/

namespace Sys2Proof

theorem decodeFamilyF_of_fieldKK_07 {op : Word} (h : fieldKK op = 0x07) :
    decodeFamilyF op = .ok (.ldVxDt (fieldX op)) := by
  simp [decodeFamilyF, h]

end Sys2Proof

namespace Sys2Proof.Machine

theorem rowDecodes_ldVxDt : RowDecodes 0xF007 0xF0FF fun op => .ldVxDt (fieldX op) :=
  rowDecodes_F0FF_F rfl fun _ => decodeFamilyF_of_fieldKK_07

theorem exec_ldVxDt (x : Reg) (s : State) : exec (.ldVxDt x) s = .next (s.setReg x s.dt).advance := rfl

/-- Fx07 raises no fault and runs before the tick, so its step writes the entry DT and then ticks (R94, R95, R203). -/
theorem step_ldVxDt {s : State} {x : Reg} (hs : s.Executes) (hi : decodeWord s.fetchOp = .ok (.ldVxDt x)) :
    step s = .next { (s.beginStep.setReg x s.dt).advance.tick with tone := decide (s.st.toNat > 0) } := by
  rw [step_of_exec hs hi (exec_ldVxDt x _), State.endStep_of_not_faulted]
  · rfl
  · simpa using hs.1

end Sys2Proof.Machine

section
open Sys2Proof Sys2Proof.Machine

/-- Settles O55: Fx07 is one register write of DT, and the tick that ends its step counts DT down but leaves Vx. -/
theorem readDelayTimer : Obligations.ReadDelayTimer := by
  refine ⟨rowDecodes_ldVxDt, fun s x => ?_, fun s x hs hop hx => ?_⟩
  · exact ⟨_, exec_ldVxDt x s, s.reg_setReg_advance x _, s.pc_setReg_advance x _, s.setReg_advance_within x _⟩
  · subst hx
    exact ⟨_, step_ldVxDt hs (rowDecodes_ldVxDt _ hop), s.beginStep.reg_setReg_advance _ _, toNat_countDown s.dt⟩

end

/-! ## The decoder (spec/30_encoding.md): every family, the opcode map, and encoding back -/

namespace Sys2Proof

/-! ### The families not met above -/

theorem decodeWord_of_fieldC_0 {op : Word} (h : fieldC op = 0x0) : decodeWord op = decodeFamily0 op := by
  simp [decodeWord, h]

theorem decodeWord_of_fieldC_2 {op : Word} (h : fieldC op = 0x2) : decodeWord op = .ok (.call (fieldNNN op)) := by
  simp [decodeWord, h]

theorem decodeWord_of_fieldC_5 {op : Word} (h : fieldC op = 0x5) :
    decodeWord op = .ok (.seReg (fieldX op) (fieldY op)) := by
  simp [decodeWord, h]

theorem decodeWord_of_fieldC_9 {op : Word} (h : fieldC op = 0x9) :
    decodeWord op = .ok (.sneReg (fieldX op) (fieldY op)) := by
  simp [decodeWord, h]

theorem decodeWord_of_fieldC_B {op : Word} (h : fieldC op = 0xB) : decodeWord op = .ok (.jpV0 (fieldNNN op)) := by
  simp [decodeWord, h]

theorem decodeWord_of_fieldC_C {op : Word} (h : fieldC op = 0xC) :
    decodeWord op = .ok (.rnd (fieldX op) (fieldKK op)) := by
  simp [decodeWord, h]

theorem decodeWord_of_fieldC_D {op : Word} (h : fieldC op = 0xD) :
    decodeWord op = .ok (.drw (fieldX op) (fieldY op) (fieldN op)) := by
  simp [decodeWord, h]

theorem decodeWord_of_fieldC_E {op : Word} (h : fieldC op = 0xE) : decodeWord op = decodeFamilyE op := by
  simp [decodeWord, h]

/-! ### The rows of families 8, E and F not met above -/

theorem decodeFamily8_of_fieldN_4 {op : Word} (h : fieldN op = 0x4) :
    decodeFamily8 op = .ok (.addReg (fieldX op) (fieldY op)) := by
  simp [decodeFamily8, h]

theorem decodeFamily8_of_fieldN_5 {op : Word} (h : fieldN op = 0x5) :
    decodeFamily8 op = .ok (.subReg (fieldX op) (fieldY op)) := by
  simp [decodeFamily8, h]

theorem decodeFamily8_of_fieldN_6 {op : Word} (h : fieldN op = 0x6) :
    decodeFamily8 op = .ok (.shr (fieldX op) (fieldY op)) := by
  simp [decodeFamily8, h]

theorem decodeFamily8_of_fieldN_7 {op : Word} (h : fieldN op = 0x7) :
    decodeFamily8 op = .ok (.subnReg (fieldX op) (fieldY op)) := by
  simp [decodeFamily8, h]

theorem decodeFamily8_of_fieldN_E {op : Word} (h : fieldN op = 0xE) :
    decodeFamily8 op = .ok (.shl (fieldX op) (fieldY op)) := by
  simp [decodeFamily8, h]

theorem decodeFamilyE_of_fieldKK_9E {op : Word} (h : fieldKK op = 0x9E) :
    decodeFamilyE op = .ok (.skp (fieldX op)) := by
  simp [decodeFamilyE, h]

theorem decodeFamilyE_of_fieldKK_A1 {op : Word} (h : fieldKK op = 0xA1) :
    decodeFamilyE op = .ok (.sknp (fieldX op)) := by
  simp [decodeFamilyE, h]

theorem decodeFamilyF_of_fieldKK_0A {op : Word} (h : fieldKK op = 0x0A) :
    decodeFamilyF op = .ok (.ldVxKey (fieldX op)) := by
  simp [decodeFamilyF, h]

theorem decodeFamilyF_of_fieldKK_15 {op : Word} (h : fieldKK op = 0x15) :
    decodeFamilyF op = .ok (.ldDtVx (fieldX op)) := by
  simp [decodeFamilyF, h]

theorem decodeFamilyF_of_fieldKK_18 {op : Word} (h : fieldKK op = 0x18) :
    decodeFamilyF op = .ok (.ldStVx (fieldX op)) := by
  simp [decodeFamilyF, h]

theorem decodeFamilyF_of_fieldKK_29 {op : Word} (h : fieldKK op = 0x29) :
    decodeFamilyF op = .ok (.ldFont (fieldX op)) := by
  simp [decodeFamilyF, h]

theorem decodeFamilyF_of_fieldKK_33 {op : Word} (h : fieldKK op = 0x33) :
    decodeFamilyF op = .ok (.ldBcd (fieldX op)) := by
  simp [decodeFamilyF, h]

theorem decodeFamilyF_of_fieldKK_55 {op : Word} (h : fieldKK op = 0x55) :
    decodeFamilyF op = .ok (.stRegs (fieldX op)) := by
  simp [decodeFamilyF, h]

theorem decodeFamilyF_of_fieldKK_65 {op : Word} (h : fieldKK op = 0x65) :
    decodeFamilyF op = .ok (.ldRegs (fieldX op)) := by
  simp [decodeFamilyF, h]

end Sys2Proof

namespace Sys2Proof.Machine

/-- A row of one whole word decodes as that word does (R74). -/
theorem rowDecodes_FFFF {p : Word} {i : Instr} (h : decodeWord p = .ok i) : RowDecodes p 0xFFFF fun _ => i :=
  fun op hop => by rwa [(mask_FFFF_iff op p).mp hop]

/-- A row of family E, under the mask F0FF, decodes as its nn selects (R74, R75). -/
theorem rowDecodes_F0FF_E {p : Word} {instr : Word → Instr} (hp : fieldC p = 0xE)
    (h : ∀ op, fieldKK op = fieldKK p → decodeFamilyE op = .ok (instr op)) : RowDecodes p 0xF0FF instr := by
  intro op hop
  have hc : fieldC op = 0xE := (fieldC_of_mask hop rfl).trans hp
  rw [decodeWord_of_fieldC_E hc, h op (fieldKK_of_mask hop rfl)]

/-! ### The decoder reads every row of the map -/

theorem rowDecodes_of_mem_opcodeMapLow : ∀ r ∈ opcodeMapLow, RowDecodes r.pattern r.mask r.instr := by
  simp only [opcodeMapLow, List.forall_mem_cons]
  exact ⟨rowDecodes_FFFF rfl, rowDecodes_FFFF rfl, rowDecodes_F000 fun _ => decodeWord_of_fieldC_1,
    rowDecodes_F000 fun _ => decodeWord_of_fieldC_2, rowDecodes_F000 fun _ => decodeWord_of_fieldC_3,
    rowDecodes_F000 fun _ => decodeWord_of_fieldC_4, rowDecodes_F000 fun _ => decodeWord_of_fieldC_5,
    rowDecodes_F000 fun _ => decodeWord_of_fieldC_6, rowDecodes_F000 fun _ => decodeWord_of_fieldC_7,
    List.forall_mem_nil _⟩

theorem rowDecodes_of_mem_opcodeMapAlu : ∀ r ∈ opcodeMapAlu, RowDecodes r.pattern r.mask r.instr := by
  simp only [opcodeMapAlu, List.forall_mem_cons]
  exact ⟨rowDecodes_F00F_8 rfl fun _ => decodeFamily8_of_fieldN_0,
    rowDecodes_F00F_8 rfl fun _ => decodeFamily8_of_fieldN_1,
    rowDecodes_F00F_8 rfl fun _ => decodeFamily8_of_fieldN_2,
    rowDecodes_F00F_8 rfl fun _ => decodeFamily8_of_fieldN_3,
    rowDecodes_F00F_8 rfl fun _ => decodeFamily8_of_fieldN_4,
    rowDecodes_F00F_8 rfl fun _ => decodeFamily8_of_fieldN_5,
    rowDecodes_F00F_8 rfl fun _ => decodeFamily8_of_fieldN_6,
    rowDecodes_F00F_8 rfl fun _ => decodeFamily8_of_fieldN_7,
    rowDecodes_F00F_8 rfl fun _ => decodeFamily8_of_fieldN_E, List.forall_mem_nil _⟩

theorem rowDecodes_of_mem_opcodeMapHigh : ∀ r ∈ opcodeMapHigh, RowDecodes r.pattern r.mask r.instr := by
  simp only [opcodeMapHigh, List.forall_mem_cons]
  exact ⟨rowDecodes_F000 fun _ => decodeWord_of_fieldC_9, rowDecodes_F000 fun _ => decodeWord_of_fieldC_A,
    rowDecodes_F000 fun _ => decodeWord_of_fieldC_B, rowDecodes_F000 fun _ => decodeWord_of_fieldC_C,
    rowDecodes_F000 fun _ => decodeWord_of_fieldC_D, List.forall_mem_nil _⟩

theorem rowDecodes_of_mem_opcodeMapFn : ∀ r ∈ opcodeMapFn, RowDecodes r.pattern r.mask r.instr := by
  simp only [opcodeMapFn, List.forall_mem_cons]
  exact ⟨rowDecodes_F0FF_E rfl fun _ => decodeFamilyE_of_fieldKK_9E,
    rowDecodes_F0FF_E rfl fun _ => decodeFamilyE_of_fieldKK_A1,
    rowDecodes_F0FF_F rfl fun _ => decodeFamilyF_of_fieldKK_07,
    rowDecodes_F0FF_F rfl fun _ => decodeFamilyF_of_fieldKK_0A,
    rowDecodes_F0FF_F rfl fun _ => decodeFamilyF_of_fieldKK_15,
    rowDecodes_F0FF_F rfl fun _ => decodeFamilyF_of_fieldKK_18,
    rowDecodes_F0FF_F rfl fun _ => decodeFamilyF_of_fieldKK_1E,
    rowDecodes_F0FF_F rfl fun _ => decodeFamilyF_of_fieldKK_29,
    rowDecodes_F0FF_F rfl fun _ => decodeFamilyF_of_fieldKK_33,
    rowDecodes_F0FF_F rfl fun _ => decodeFamilyF_of_fieldKK_55,
    rowDecodes_F0FF_F rfl fun _ => decodeFamilyF_of_fieldKK_65, List.forall_mem_nil _⟩

/-- Every row of the map decodes to what it reads (R74, R75). -/
theorem rowDecodes_of_mem_opcodeMap : ∀ r ∈ opcodeMap, RowDecodes r.pattern r.mask r.instr := by
  simp only [opcodeMap, List.forall_mem_append]
  exact ⟨⟨⟨rowDecodes_of_mem_opcodeMapLow, rowDecodes_of_mem_opcodeMapAlu⟩, rowDecodes_of_mem_opcodeMapHigh⟩,
    rowDecodes_of_mem_opcodeMapFn⟩

theorem decodeWord_of_selectedBy {r : OpcodeRow} (hr : r ∈ opcodeMap) {op : Word} (h : r.selectedBy op = true) :
    decodeWord op = .ok (r.instr op) :=
  rowDecodes_of_mem_opcodeMap r hr op (beq_iff_eq.mp h)

end Sys2Proof.Machine

namespace Sys2Proof

open Machine

/-! ### Decoding an encoded instruction -/

/-- The laws of the rows, for every instruction. -/
theorem encoding_statement (i : Instr) : Laws.Encoding.Statement i := by
  cases i with
  | cls => exact Laws.Encoding.cls
  | ret => exact Laws.Encoding.ret
  | jp nnn => exact Laws.Encoding.jp nnn
  | call nnn => exact Laws.Encoding.call nnn
  | seImm x kk => exact Laws.Encoding.seImm x kk
  | sneImm x kk => exact Laws.Encoding.sneImm x kk
  | seReg x y => exact Laws.Encoding.seReg x y
  | ldImm x kk => exact Laws.Encoding.ldImm x kk
  | addImm x kk => exact Laws.Encoding.addImm x kk
  | ldReg x y => exact Laws.Encoding.ldReg x y
  | orReg x y => exact Laws.Encoding.orReg x y
  | andReg x y => exact Laws.Encoding.andReg x y
  | xorReg x y => exact Laws.Encoding.xorReg x y
  | addReg x y => exact Laws.Encoding.addReg x y
  | subReg x y => exact Laws.Encoding.subReg x y
  | shr x y => exact Laws.Encoding.shr x y
  | subnReg x y => exact Laws.Encoding.subnReg x y
  | shl x y => exact Laws.Encoding.shl x y
  | sneReg x y => exact Laws.Encoding.sneReg x y
  | ldI nnn => exact Laws.Encoding.ldI nnn
  | jpV0 nnn => exact Laws.Encoding.jpV0 nnn
  | rnd x kk => exact Laws.Encoding.rnd x kk
  | drw x y n => exact Laws.Encoding.drw x y n
  | skp x => exact Laws.Encoding.skp x
  | sknp x => exact Laws.Encoding.sknp x
  | ldVxDt x => exact Laws.Encoding.ldVxDt x
  | ldVxKey x => exact Laws.Encoding.ldVxKey x
  | ldDtVx x => exact Laws.Encoding.ldDtVx x
  | ldStVx x => exact Laws.Encoding.ldStVx x
  | addI x => exact Laws.Encoding.addI x
  | ldFont x => exact Laws.Encoding.ldFont x
  | ldBcd x => exact Laws.Encoding.ldBcd x
  | stRegs x => exact Laws.Encoding.stRegs x
  | ldRegs x => exact Laws.Encoding.ldRegs x

/-- The word of an instruction selects its row, and the row reads the instruction back. -/
theorem decodeWord_encode (i : Instr) : decodeWord (encode i) = .ok i := by
  obtain ⟨r, hr, hsel, hinstr⟩ := encoding_statement i
  rw [decodeWord_of_selectedBy hr hsel, hinstr]

/-! ### Encoding a decoded word -/

theorem packNNN_of_fieldC {op : Word} {c : Nibble} (hc : fieldC op = c) : packNNN c (fieldNNN op) = op := by
  rw [← hc, packNNN_fields]

theorem packXKK_of_fieldC {op : Word} {c : Nibble} (hc : fieldC op = c) : packXKK c (fieldX op) (fieldKK op) = op := by
  rw [← hc, packXKK_fields]

theorem packXKK_of_fieldKK {op : Word} {c : Nibble} {kk : Byte} (hc : fieldC op = c) (hk : fieldKK op = kk) :
    packXKK c (fieldX op) kk = op := by
  rw [← hc, ← hk, packXKK_fields]

theorem packXYN_of_fieldN {op : Word} {c n : Nibble} (hc : fieldC op = c) (hn : fieldN op = n) :
    packXYN c (fieldX op) (fieldY op) n = op := by
  rw [← hc, ← hn, packXYN_fields]

/-- Packing with n = 0 clears the ignored nibble (R77). -/
theorem packXYN_zero {op : Word} {c : Nibble} (hc : fieldC op = c) :
    packXYN c (fieldX op) (fieldY op) 0 = op &&& 0xFFF0 := by
  have hC : fieldC (op &&& 0xFFF0) = c := (fieldC_and op _).trans (BitVec.and_allOnes.trans hc)
  have hX : fieldX (op &&& 0xFFF0) = fieldX op := (fieldX_and op _).trans BitVec.and_allOnes
  have hY : fieldY (op &&& 0xFFF0) = fieldY op := (fieldY_and op _).trans BitVec.and_allOnes
  have hN : fieldN (op &&& 0xFFF0) = 0 := (fieldN_and op _).trans BitVec.and_zero
  rw [← packXYN_of_fieldN hC hN, hX, hY]

theorem encode_of_decodeFamily0 {op : Word} {i : Instr} (h : decodeFamily0 op = .ok i) : encode i = op := by
  unfold decodeFamily0 at h
  split at h <;> cases h <;> rfl

theorem encode_of_decodeFamily8 {op : Word} {i : Instr} (hc : fieldC op = 0x8) (h : decodeFamily8 op = .ok i) :
    encode i = op := by
  unfold decodeFamily8 at h
  split at h <;> cases h <;> exact packXYN_of_fieldN hc ‹_›

theorem encode_of_decodeFamilyE {op : Word} {i : Instr} (hc : fieldC op = 0xE) (h : decodeFamilyE op = .ok i) :
    encode i = op := by
  unfold decodeFamilyE at h
  split at h <;> cases h <;> exact packXKK_of_fieldKK hc ‹_›

theorem encode_of_decodeFamilyF {op : Word} {i : Instr} (hc : fieldC op = 0xF) (h : decodeFamilyF op = .ok i) :
    encode i = op := by
  unfold decodeFamilyF at h
  split at h <;> cases h <;> exact packXKK_of_fieldKK hc ‹_›

/-- The sixteen values of c or n (R74). -/
theorem nibble_cases : ∀ c : Nibble, c = 0x0 ∨ c = 0x1 ∨ c = 0x2 ∨ c = 0x3 ∨ c = 0x4 ∨ c = 0x5 ∨ c = 0x6 ∨ c = 0x7 ∨
    c = 0x8 ∨ c = 0x9 ∨ c = 0xA ∨ c = 0xB ∨ c = 0xC ∨ c = 0xD ∨ c = 0xE ∨ c = 0xF := by
  decide

/-- Outside families 5 and 9 no bit of a known word is dropped. -/
theorem encode_of_decodeWord {op : Word} {i : Instr} (h5 : fieldC op ≠ 0x5) (h9 : fieldC op ≠ 0x9)
    (h : decodeWord op = .ok i) : encode i = op := by
  rcases nibble_cases (fieldC op) with
    hc | hc | hc | hc | hc | hc | hc | hc | hc | hc | hc | hc | hc | hc | hc | hc
  · exact encode_of_decodeFamily0 (decodeWord_of_fieldC_0 hc ▸ h)
  · rw [decodeWord_of_fieldC_1 hc] at h; cases h; exact packNNN_of_fieldC hc
  · rw [decodeWord_of_fieldC_2 hc] at h; cases h; exact packNNN_of_fieldC hc
  · rw [decodeWord_of_fieldC_3 hc] at h; cases h; exact packXKK_of_fieldC hc
  · rw [decodeWord_of_fieldC_4 hc] at h; cases h; exact packXKK_of_fieldC hc
  · exact absurd hc h5
  · rw [decodeWord_of_fieldC_6 hc] at h; cases h; exact packXKK_of_fieldC hc
  · rw [decodeWord_of_fieldC_7 hc] at h; cases h; exact packXKK_of_fieldC hc
  · exact encode_of_decodeFamily8 hc (decodeWord_of_fieldC_8 hc ▸ h)
  · exact absurd hc h9
  · rw [decodeWord_of_fieldC_A hc] at h; cases h; exact packNNN_of_fieldC hc
  · rw [decodeWord_of_fieldC_B hc] at h; cases h; exact packNNN_of_fieldC hc
  · rw [decodeWord_of_fieldC_C hc] at h; cases h; exact packXKK_of_fieldC hc
  · rw [decodeWord_of_fieldC_D hc] at h; cases h; exact packXYN_of_fieldN hc rfl
  · exact encode_of_decodeFamilyE hc (decodeWord_of_fieldC_E hc ▸ h)
  · exact encode_of_decodeFamilyF hc (decodeWord_of_fieldC_F hc ▸ h)

/-- The register skips are families 5 and 9, and theirs are the only words that lose the ignored nibble. -/
theorem encode_of_decodeWord_skip {op : Word} {i : Instr} (hc : fieldC op = 0x5 ∨ fieldC op = 0x9)
    (h : decodeWord op = .ok i) : encode i = op &&& 0xFFF0 := by
  rcases hc with hc | hc
  · rw [decodeWord_of_fieldC_5 hc] at h; cases h; exact packXYN_zero hc
  · rw [decodeWord_of_fieldC_9 hc] at h; cases h; exact packXYN_zero hc

/-- The word of a known instruction other than a register skip is the word decoded. -/
theorem encode_of_decodeWord_ne_skip {op : Word} {i : Instr} (hi : ∀ x y, i ≠ .seReg x y ∧ i ≠ .sneReg x y)
    (h : decodeWord op = .ok i) : encode i = op := by
  refine encode_of_decodeWord (fun hc => ?_) (fun hc => ?_) h
  · rw [decodeWord_of_fieldC_5 hc] at h; cases h; exact (hi _ _).1 rfl
  · rw [decodeWord_of_fieldC_9 hc] at h; cases h; exact (hi _ _).2 rfl

/-! ### The words the decoder knows, and the others -/

/-- A known word selects a row of the map: the row of its instruction's word, which differs at most in a nibble no mask of
families 5 and 9 keeps. -/
theorem exists_selectedBy_of_decodeWord {op : Word} {i : Instr} (h : decodeWord op = .ok i) :
    ∃ r ∈ opcodeMap, r.selectedBy op = true := by
  by_cases hc : fieldC op = 0x5 ∨ fieldC op = 0x9
  · rcases hc with hc | hc
    · exact ⟨opcodeMap[6], List.getElem_mem _, beq_iff_eq.mpr ((mask_F000_iff op 0x5000 rfl).mpr hc)⟩
    · exact ⟨opcodeMap[18], List.getElem_mem _, beq_iff_eq.mpr ((mask_F000_iff op 0x9000 rfl).mpr hc)⟩
  · obtain ⟨r, hr, hsel, -⟩ := encoding_statement i
    rw [encode_of_decodeWord (fun h5 => hc (.inl h5)) (fun h9 => hc (.inr h9)) h] at hsel
    exact ⟨r, hr, hsel⟩

/-- Two rows whose patterns differ under both masks select no common word. -/
theorem not_selectedBy_both {r r' : OpcodeRow} (h : r.pattern &&& r'.mask ≠ r'.pattern &&& r.mask) (op : Word) :
    ¬ (r.selectedBy op = true ∧ r'.selectedBy op = true) := by
  rintro ⟨hr, hr'⟩
  have hp : op &&& r.mask = r.pattern := beq_iff_eq.mp hr
  have hp' : op &&& r'.mask = r'.pattern := beq_iff_eq.mp hr'
  refine h ?_
  rw [← hp, ← hp', BitVec.and_assoc, BitVec.and_assoc, BitVec.and_comm r.mask]

theorem opcodeMap_patterns_differ :
    opcodeMap.Pairwise fun r r' => r.pattern &&& r'.mask ≠ r'.pattern &&& r.mask := by
  decide

/-- Family 0 is the words up to 0FFF. -/
theorem fieldC_eq_zero_iff (op : Word) : fieldC op = 0x0 ↔ op.toNat ≤ 0x0FFF := by
  have hop := op.isLt
  rw [← BitVec.toNat_inj, fieldC, BitVec.extractLsb'_toNat, Nat.shiftRight_eq_div_pow]
  show op.toNat / 4096 % 16 = 0 ↔ _
  omega

theorem decodeFamily0_eq_unknown_iff (op : Word) :
    decodeFamily0 op = .error (.unknown op) ↔ op ≠ 0x00E0 ∧ op ≠ 0x00EE := by
  unfold decodeFamily0
  split
  · simp
  · simp
  · next h0 hE => exact ⟨fun _ => ⟨h0, hE⟩, fun _ => rfl⟩

theorem decodeFamily8_eq_unknown_iff (op : Word) :
    decodeFamily8 op = .error (.unknown op) ↔ fieldN op ∈ [0x8#4, 0x9#4, 0xA#4, 0xB#4, 0xC#4, 0xD#4, 0xF#4] := by
  unfold decodeFamily8
  rcases nibble_cases (fieldN op) with
    hn | hn | hn | hn | hn | hn | hn | hn | hn | hn | hn | hn | hn | hn | hn | hn <;> simp [hn]

theorem decodeFamilyE_eq_unknown_iff (op : Word) :
    decodeFamilyE op = .error (.unknown op) ↔ fieldKK op ∉ [0x9E#8, 0xA1#8] := by
  unfold decodeFamilyE
  split
  · next hk => simp [hk]
  · next hk => simp [hk]
  · next h9E hA1 => simpa using ⟨h9E, hA1⟩

theorem decodeFamilyF_eq_unknown_iff (op : Word) :
    decodeFamilyF op = .error (.unknown op) ↔
      fieldKK op ∉ [0x07#8, 0x0A#8, 0x15#8, 0x18#8, 0x1E#8, 0x29#8, 0x33#8, 0x55#8, 0x65#8] := by
  unfold decodeFamilyF
  split
  case h_10 => simp_all
  all_goals next hk => simp [hk]

/-- The only rejection of a word is Unknown, of that word. -/
theorem eq_unknown_of_decodeWord {op : Word} {e : Reject} (h : decodeWord op = .error e) : e = .unknown op := by
  unfold decodeWord decodeFamily0 decodeFamily8 decodeFamilyE decodeFamilyF at h
  repeat' split at h
  all_goals cases h <;> rfl

end Sys2Proof

section
open Sys2Proof Sys2Proof.Machine

/-- Settles O1: the bytes are those of the instruction's word, which decodes to it. -/
theorem decodeOfEncodeIsTheInstruction : Obligations.DecodeOfEncodeIsTheInstruction := by
  intro i rest
  show decodeBytes (highByte (encode i) :: lowByte (encode i) :: rest) = _
  rw [decodeBytes_cons, wordOfBytes_highByte_lowByte, decodeWord_encode]

/-- Settles O2: a row that selects a word is what the decoder reads, a known word selects a row, and the patterns of any
two rows differ under both masks. -/
theorem dispatchAgreesWithOpcodeMap : Obligations.DispatchAgreesWithOpcodeMap := by
  refine ⟨fun op => ?_, opcodeMap_patterns_differ.imp fun h => not_selectedBy_both h⟩
  unfold decodeByMap
  cases hrow : opcodeMap.find? (·.selectedBy op) with
  | some r =>
    have hsel : r.selectedBy op = true := List.find?_some (p := fun row : OpcodeRow => row.selectedBy op) hrow
    exact decodeWord_of_selectedBy (List.mem_of_find?_eq_some hrow) hsel
  | none =>
    cases hdec : decodeWord op with
    | ok i =>
      obtain ⟨r, hr, hsel⟩ := exists_selectedBy_of_decodeWord hdec
      exact absurd hsel (List.find?_eq_none.mp hrow r hr)
    | error e => rw [eq_unknown_of_decodeWord hdec]; rfl

/-- Settles O3: family by family; only families 0, 8, E and F have unknown words. -/
theorem unknownWordsAreTheListedRanges : Obligations.UnknownWordsAreTheListedRanges := by
  intro op
  rw [← fieldC_eq_zero_iff]
  rcases nibble_cases (fieldC op) with
    hc | hc | hc | hc | hc | hc | hc | hc | hc | hc | hc | hc | hc | hc | hc | hc
  · rw [decodeWord_of_fieldC_0 hc, decodeFamily0_eq_unknown_iff]; simp [hc]
  · simp [decodeWord_of_fieldC_1 hc, hc]
  · simp [decodeWord_of_fieldC_2 hc, hc]
  · simp [decodeWord_of_fieldC_3 hc, hc]
  · simp [decodeWord_of_fieldC_4 hc, hc]
  · simp [decodeWord_of_fieldC_5 hc, hc]
  · simp [decodeWord_of_fieldC_6 hc, hc]
  · simp [decodeWord_of_fieldC_7 hc, hc]
  · rw [decodeWord_of_fieldC_8 hc, decodeFamily8_eq_unknown_iff]; simp [hc]
  · simp [decodeWord_of_fieldC_9 hc, hc]
  · simp [decodeWord_of_fieldC_A hc, hc]
  · simp [decodeWord_of_fieldC_B hc, hc]
  · simp [decodeWord_of_fieldC_C hc, hc]
  · simp [decodeWord_of_fieldC_D hc, hc]
  · rw [decodeWord_of_fieldC_E hc, decodeFamilyE_eq_unknown_iff]; simp [hc]
  · rw [decodeWord_of_fieldC_F hc, decodeFamilyF_eq_unknown_iff]; simp [hc]

/-- Settles O4: the fields of a known word, packed again, are the word; families 5 and 9 pack n = 0. -/
theorem encodeOfDecodeIsTheWord : Obligations.EncodeOfDecodeIsTheWord := by
  intro op i h
  split
  · next hc => exact encode_of_decodeWord_skip hc h
  · next hc => exact encode_of_decodeWord (fun h5 => hc (.inl h5)) (fun h9 => hc (.inr h9)) h

/-- Settles O5: families 5 and 9 read x and y alone. -/
theorem ignoredNibbleDoesNotMatter : Obligations.IgnoredNibbleDoesNotMatter := by
  intro x y n
  constructor
  · rw [decodeWord_of_fieldC_5 (fieldC_packXYN ..), fieldX_packXYN, fieldY_packXYN]
  · rw [decodeWord_of_fieldC_9 (fieldC_packXYN ..), fieldX_packXYN, fieldY_packXYN]

/-- Settles O6: the decoder computes on written-out words. -/
theorem sampleWordsDecode : Obligations.SampleWordsDecode := by
  unfold Obligations.SampleWordsDecode
  decide

end

/-! ## What an instruction does (spec/40_execution_cycle.md R93, spec/60_exceptions.md R221): its fault, or its effect -/

namespace Sys2Proof.Machine

/-- The fault an instruction raises in a state, if any (R221). `exec_eq` ties it to `exec`. -/
def faultOf (i : Instr) (s : State) : Option Fault :=
  match i with
  | .call _ => if s.sp = 16 then some .stackOverflow else none
  | .ret => if s.sp = 0 then some .stackUnderflow else none
  | .drw _ _ n => if 0 < n.toNat ∧ 0xFFF < s.i.toNat + n.toNat - 1 then some .memRange else none
  | .ldBcd _ => if 0xFFF < s.i.toNat + 2 then some .memRange else none
  | .stRegs x | .ldRegs x => if 0xFFF < s.i.toNat + x.toNat then some .memRange else none
  | .skp x | .sknp x => if 15 < (s.reg x).toNat then some .keyRange else none
  | _ => none

/-- The state an instruction gives where it raises no fault. `exec_eq` ties it to `exec`. -/
def effect (i : Instr) (s : State) : State :=
  match i with
  | .cls => ({ s with fb := [] } : State).advance
  | .ret => s.popPc
  | .jp nnn => s.setPc (zextAddr nnn)
  | .call nnn => (s.push (s.pc + 2)).setPc (zextAddr nnn)
  | .seImm x kk => s.skipIf (s.reg x == kk)
  | .sneImm x kk => s.skipIf (s.reg x != kk)
  | .seReg x y => s.skipIf (s.reg x == s.reg y)
  | .sneReg x y => s.skipIf (s.reg x != s.reg y)
  | .ldImm x kk => (s.setReg x kk).advance
  | .addImm x kk => (s.setReg x (s.reg x + kk)).advance
  | .ldReg x y => (s.setReg x (s.reg y)).advance
  | .orReg x y => (s.setReg x (s.reg x ||| s.reg y)).advance
  | .andReg x y => (s.setReg x (s.reg x &&& s.reg y)).advance
  | .xorReg x y => (s.setReg x (s.reg x ^^^ s.reg y)).advance
  | .addReg x y => (s.setRegAndFlag x (s.reg x + s.reg y) (carryFlag (s.reg x) (s.reg y))).advance
  | .subReg x y => (s.setRegAndFlag x (s.reg x - s.reg y) (greaterFlag (s.reg x) (s.reg y))).advance
  | .subnReg x y => (s.setRegAndFlag x (s.reg y - s.reg x) (greaterFlag (s.reg y) (s.reg x))).advance
  | .shr x y => (s.setRegAndFlag x (s.shiftOperand x y >>> 1) (lowBitFlag (s.shiftOperand x y))).advance
  | .shl x y => (s.setRegAndFlag x (s.shiftOperand x y <<< 1) (highBitFlag (s.shiftOperand x y))).advance
  | .ldI nnn => (s.setIndex (zextAddr nnn)).advance
  | .jpV0 nnn => s.setPc (zextAddr nnn + zextByte s.jumpBase)
  | .rnd x kk => ((s.setReg x (s.rndNext &&& kk)).countDraw).advance
  | .drw x y n => (s.drawPixels (s.touchedPixels x y n)).advance
  | .skp x => s.skipIf (s.key (s.reg x).toNat)
  | .sknp x => s.skipIf (!s.key (s.reg x).toNat)
  | .ldVxDt x => (s.setReg x s.dt).advance
  | .ldVxKey x => s.leastKey.elim s fun k => (s.setReg x (BitVec.ofNat 8 k)).advance
  | .ldDtVx x => (s.setDelay (s.reg x)).advance
  | .ldStVx x => (s.setSound (s.reg x)).advance
  | .addI x => (s.setIndex (s.i + zextByte (s.reg x))).advance
  | .ldFont x => (s.setIndex (BitVec.ofNat 16 (s.spec.glyphSize * (s.reg x).toNat))).advance
  | .ldBcd x => (s.writeMem s.i.toNat (bcdDigits (s.reg x))).advance
  | .stRegs x => ((s.writeMem s.i.toNat (s.regsUpTo x)).bumpIndex x).advance
  | .ldRegs x => ((s.loadRegsFrom x s.i.toNat).bumpIndex x).advance

theorem exec_drw_eq (x y : Reg) (n : Nibble) (s : State) : exec (.drw x y n) s = .next
    ((faultOf (.drw x y n) s).elim (effect (.drw x y n) s) fun c => s.raiseFault c (some (encode (.drw x y n)))) := by
  by_cases h : 0 < n.toNat ∧ 0xFFF < s.i.toNat + n.toNat - 1
  · rw [exec_drw_fault (by rintro rfl; exact absurd h.1 (by decide)) h.2]
    rw [faultOf, if_pos h]
    rfl
  · have hn : n = 0 ∨ s.i.toNat + n.toNat - 1 ≤ 0xFFF := by
      rw [← BitVec.toNat_inj]
      show n.toNat = 0 ∨ _
      omega
    rw [exec_drw_ok hn, faultOf, if_neg h]
    rfl

/-- WHAT AN INSTRUCTION DOES: it takes its fault with its own opcode, or it has its effect. -/
theorem exec_eq (i : Instr) (s : State) :
    exec i s = .next ((faultOf i s).elim (effect i s) fun c => s.raiseFault c (some (encode i))) := by
  cases i
  case call nnn =>
    by_cases h : s.sp = 16
    · rw [exec_call_fault h, faultOf, if_pos h]; rfl
    · rw [exec_call_ok h, faultOf, if_neg h]; rfl
  case ret =>
    by_cases h : s.sp = 0
    · rw [exec_ret_fault h, faultOf, if_pos h]; rfl
    · rw [exec_ret_ok h, faultOf, if_neg h]; rfl
  case drw x y n => exact exec_drw_eq x y n s
  case ldBcd x =>
    by_cases h : 0xFFF < s.i.toNat + 2
    · rw [exec_ldBcd_fault h, faultOf, if_pos h]; rfl
    · rw [exec_ldBcd_ok (Nat.le_of_not_lt h), faultOf, if_neg h]; rfl
  case stRegs x =>
    by_cases h : 0xFFF < s.i.toNat + x.toNat
    · rw [exec_stRegs_fault h, faultOf, if_pos h]; rfl
    · rw [exec_stRegs_ok (Nat.le_of_not_lt h), faultOf, if_neg h]; rfl
  case ldRegs x =>
    by_cases h : 0xFFF < s.i.toNat + x.toNat
    · rw [exec_ldRegs_fault h, faultOf, if_pos h]; rfl
    · rw [exec_ldRegs_ok (Nat.le_of_not_lt h), faultOf, if_neg h]; rfl
  case skp x =>
    by_cases h : 15 < (s.reg x).toNat
    · rw [exec_skp_fault h, faultOf, if_pos h]; rfl
    · rw [exec_skp_ok (Nat.le_of_not_lt h), faultOf, if_neg h]; rfl
  case sknp x =>
    by_cases h : 15 < (s.reg x).toNat
    · rw [exec_sknp_fault h, faultOf, if_pos h]; rfl
    · rw [exec_sknp_ok (Nat.le_of_not_lt h), faultOf, if_neg h]; rfl
  case ldVxKey x =>
    cases h : s.leastKey with
    | some k => simp [exec_ldVxKey_some h, faultOf, effect, h]
    | none => simp [exec_ldVxKey_none h, faultOf, effect, h]
  all_goals rfl

theorem exec_of_faultOf {i : Instr} {s : State} {c : Fault} (h : faultOf i s = some c) :
    exec i s = .next (s.raiseFault c (some (encode i))) := by
  rw [exec_eq, h]; rfl

theorem exec_of_faultOf_none {i : Instr} {s : State} (h : faultOf i s = none) : exec i s = .next (effect i s) := by
  rw [exec_eq, h]; rfl

/-- No instruction raises the fetch's fault. -/
theorem faultOf_ne_pcRange (i : Instr) (s : State) : faultOf i s ≠ some .pcRange := by
  cases i <;> simp only [faultOf, ne_eq, reduceCtorEq, not_false_eq_true] <;> split <;> simp

/-- A faulting instruction is no register skip, so its word is the word it was decoded from. -/
theorem encode_of_faultOf {i : Instr} {s : State} {c : Fault} {op : Word} (h : faultOf i s = some c)
    (hop : decodeWord op = .ok i) : encode i = op := by
  refine encode_of_decodeWord_ne_skip (fun x y => ⟨?_, ?_⟩) hop
  · rintro rfl; cases h
  · rintro rfl; cases h

/-- What no effect writes: the keypad, PEND, SPEC, the fault record and the reports (R99). -/
@[simp] theorem effect_keeps (i : Instr) (s : State) :
    (effect i s).keys = s.keys ∧ (effect i s).pend = s.pend ∧ (effect i s).spec = s.spec ∧
    (effect i s).faulted = s.faulted ∧ (effect i s).faultCause = s.faultCause ∧ (effect i s).faultPc = s.faultPc ∧
    (effect i s).faultOp = s.faultOp ∧ (effect i s).tone = s.tone ∧ (effect i s).unk = s.unk ∧
    (effect i s).unkOp = s.unkOp := by
  cases i
  case ldVxKey x => cases h : s.leastKey <;> simp [effect, h]
  all_goals simp [effect]

/-! ### The end of a step that takes no fault, and the unknown word -/

/-- The tick, then TONE from the ST given (R94, R95): what `endStep` does where no fault is latched. -/
def State.tickTone (st0 : Byte) (s : State) : State := { s.tick with tone := decide (st0.toNat > 0) }

@[simp] theorem State.tickTone_keeps (b : Byte) (s : State) :
    (s.tickTone b).v = s.v ∧ (∀ r, (s.tickTone b).reg r = s.reg r) ∧ (s.tickTone b).i = s.i ∧
    (s.tickTone b).pc = s.pc ∧ (s.tickTone b).sp = s.sp ∧ (s.tickTone b).stack = s.stack ∧
    (∀ k, (s.tickTone b).stackAt k = s.stackAt k) ∧ (s.tickTone b).fb = s.fb ∧
    (∀ px py, (s.tickTone b).pixel px py = s.pixel px py) ∧ (s.tickTone b).keys = s.keys ∧
    (s.tickTone b).mem = s.mem ∧ (∀ a, (s.tickTone b).readMem a = s.readMem a) ∧ (s.tickTone b).pend = s.pend ∧
    (s.tickTone b).faulted = s.faulted ∧ (s.tickTone b).faultCause = s.faultCause ∧
    (s.tickTone b).faultPc = s.faultPc ∧ (s.tickTone b).faultOp = s.faultOp ∧ (s.tickTone b).unk = s.unk ∧
    (s.tickTone b).unkOp = s.unkOp ∧ (s.tickTone b).draw = s.draw ∧ (s.tickTone b).spec = s.spec ∧
    (s.tickTone b).rndDraws = s.rndDraws := by
  and_intros <;> intros <;> rfl

@[simp] theorem State.tickTone_tone (b : Byte) (s : State) : (s.tickTone b).tone = decide (0 < b.toNat) := rfl
@[simp] theorem State.tickTone_dt (b : Byte) (s : State) : (s.tickTone b).dt = countDown s.dt := rfl
@[simp] theorem State.tickTone_st (b : Byte) (s : State) : (s.tickTone b).st = countDown s.st := rfl

/-- The report of an unknown word (R100). -/
def State.reportUnknown (op : Word) (s : State) : State := ({ s with unk := true, unkOp := op } : State).advance

@[simp] theorem State.reportUnknown_keeps (op : Word) (s : State) :
    (s.reportUnknown op).v = s.v ∧ (∀ r, (s.reportUnknown op).reg r = s.reg r) ∧ (s.reportUnknown op).i = s.i ∧
    (s.reportUnknown op).sp = s.sp ∧ (s.reportUnknown op).stack = s.stack ∧
    (∀ k, (s.reportUnknown op).stackAt k = s.stackAt k) ∧ (s.reportUnknown op).dt = s.dt ∧
    (s.reportUnknown op).st = s.st ∧ (s.reportUnknown op).fb = s.fb ∧
    (∀ px py, (s.reportUnknown op).pixel px py = s.pixel px py) ∧ (s.reportUnknown op).keys = s.keys ∧
    (s.reportUnknown op).mem = s.mem ∧ (∀ a, (s.reportUnknown op).readMem a = s.readMem a) ∧
    (s.reportUnknown op).pend = s.pend ∧ (s.reportUnknown op).faulted = s.faulted ∧
    (s.reportUnknown op).faultCause = s.faultCause ∧ (s.reportUnknown op).faultPc = s.faultPc ∧
    (s.reportUnknown op).faultOp = s.faultOp ∧ (s.reportUnknown op).tone = s.tone ∧
    (s.reportUnknown op).draw = s.draw ∧ (s.reportUnknown op).spec = s.spec ∧
    (s.reportUnknown op).rndDraws = s.rndDraws := by
  and_intros <;> intros <;> rfl

@[simp] theorem State.reportUnknown_pc (op : Word) (s : State) : (s.reportUnknown op).pc = s.pc + 2 := rfl
@[simp] theorem State.reportUnknown_unk (op : Word) (s : State) : (s.reportUnknown op).unk = true := rfl
@[simp] theorem State.reportUnknown_unkOp (op : Word) (s : State) : (s.reportUnknown op).unkOp = op := rfl

theorem State.endStep_eq_tickTone {s : State} (b : Byte) (h : s.faulted = false) : s.endStep b = s.tickTone b :=
  State.endStep_of_not_faulted b h

/-! ### The step, case by case -/

theorem step_idle {s : State} (h : s.faulted = true ∨ s.pend.toNat ≤ s.pc.toNat) : step s = .next s.idleStep := by
  unfold step State.atEnd
  split
  · rfl
  · next hf => rw [if_pos (by simpa using h.resolve_left hf)]

theorem step_pcRange {s : State} (hf : s.faulted = false) (hpc : s.pc.toNat < s.pend.toNat) (h : 0xFFE < s.pc.toNat) :
    step s = .next (s.beginStep.raiseFault .pcRange none) := by
  unfold step State.atEnd State.fetchOutOfRange
  rw [if_neg (by simp [hf]), if_neg (by simpa using hpc), if_pos (by simpa using h)]

/-- The step of a known word that raises a fault: the fault is taken with the fetched word, and the step ends (R222). -/
theorem step_of_faultOf {s : State} {i : Instr} {c : Fault} (hs : s.Executes) (hi : decodeWord s.fetchOp = .ok i)
    (hc : faultOf i s.beginStep = some c) : step s = .next (s.beginStep.raiseFault c (some s.fetchOp)) := by
  rw [step_of_exec hs hi (exec_of_faultOf hc), encode_of_faultOf hc hi, State.endStep_of_faulted _ (by simp)]

/-- The step of a known word that raises none: its effect, the tick, TONE (R98). -/
theorem step_of_faultOf_none {s : State} {i : Instr} (hs : s.Executes) (hi : decodeWord s.fetchOp = .ok i)
    (hc : faultOf i s.beginStep = none) : step s = .next ((effect i s.beginStep).tickTone s.st) := by
  rw [step_of_exec hs hi (exec_of_faultOf_none hc), State.endStep_eq_tickTone _ (by simpa using hs.1)]

/-- The step of an unknown word: the report, the tick, TONE (R100). -/
theorem step_of_unknown {s : State} {e : Reject} (hs : s.Executes) (he : decodeWord s.fetchOp = .error e) :
    step s = .next ((s.beginStep.reportUnknown s.fetchOp).tickTone s.st) := by
  rw [step_of_executes hs, execWord_of_error he]
  exact congrArg _ (State.endStep_eq_tickTone (s := s.beginStep.reportUnknown s.fetchOp) _ (by simpa using hs.1))

/-- Every state steps in one of four ways: it idles, it takes a fault with the opcode as R220 has it, it has the effect
of a known word, or it reports an unknown one. -/
theorem exists_step (s : State) : ∃ t, step s = .next t ∧
    (((s.faulted = true ∨ s.pend.toNat ≤ s.pc.toNat) ∧ t = s.idleStep) ∨
     (s.faulted = false ∧ s.pc.toNat < s.pend.toNat ∧
        ∃ c, t = s.beginStep.raiseFault c (if c = .pcRange then none else some s.fetchOp)) ∨
     (s.Executes ∧ ∃ i, decodeWord s.fetchOp = .ok i ∧ faultOf i s.beginStep = none ∧
        t = (effect i s.beginStep).tickTone s.st) ∨
     (s.Executes ∧ t = (s.beginStep.reportUnknown s.fetchOp).tickTone s.st)) := by
  rcases step_cases s with ⟨hf, h⟩ | ⟨-, hend, h⟩ | ⟨hf, hpc, -, h⟩ | ⟨hs, -⟩
  · exact ⟨_, h, .inl ⟨.inl hf, rfl⟩⟩
  · exact ⟨_, h, .inl ⟨.inr hend, rfl⟩⟩
  · exact ⟨_, h, .inr (.inl ⟨hf, hpc, .pcRange, rfl⟩)⟩
  · cases hi : decodeWord s.fetchOp with
    | error e => exact ⟨_, step_of_unknown hs hi, .inr (.inr (.inr ⟨hs, rfl⟩))⟩
    | ok i =>
      cases hc : faultOf i s.beginStep with
      | none => exact ⟨_, step_of_faultOf_none hs hi hc, .inr (.inr (.inl ⟨hs, i, rfl, hc, rfl⟩))⟩
      | some c =>
        have hne : c ≠ .pcRange := by rintro rfl; exact faultOf_ne_pcRange i _ hc
        exact ⟨_, step_of_faultOf hs hi hc, .inr (.inl ⟨hs.1, hs.2.1, c, by rw [if_neg hne]⟩)⟩

/-- EVERYTHING A STEP CAN DO, read from the state it answers. -/
theorem step_inversion {s t : State} (h : step s = .next t) :
    ((s.faulted = true ∨ s.pend.toNat ≤ s.pc.toNat) ∧ t = s.idleStep) ∨
    (s.faulted = false ∧ s.pc.toNat < s.pend.toNat ∧
      ∃ c, t = s.beginStep.raiseFault c (if c = .pcRange then none else some s.fetchOp)) ∨
    (s.Executes ∧ ∃ i, decodeWord s.fetchOp = .ok i ∧ faultOf i s.beginStep = none ∧
      t = (effect i s.beginStep).tickTone s.st) ∨
    (s.Executes ∧ t = (s.beginStep.reportUnknown s.fetchOp).tickTone s.st) := by
  obtain ⟨u, hu, hcases⟩ := exists_step s
  cases hu.symm.trans h
  exact hcases

theorem exists_step_next (s : State) : ∃ t, step s = .next t := (exists_step s).imp fun _ => And.left

end Sys2Proof.Machine

/-! ## The step (spec/40_execution_cycle.md) and runs (spec/70_reset_and_hazards.md section 5) -/

namespace Sys2Proof.Machine

theorem exists_exec_next (i : Instr) (s : State) : ∃ t, exec i s = .next t := ⟨_, exec_eq i s⟩

/-- Only Fx15 writes DT (R204). -/
theorem effect_dt {i : Instr} (hi : ∀ x, i ≠ .ldDtVx x) (s : State) : (effect i s).dt = s.dt := by
  cases i
  case ldDtVx x => exact absurd rfl (hi x)
  case ldVxKey x => cases h : s.leastKey <;> simp [effect, h]
  all_goals simp [effect]

/-- Only Fx18 writes ST (R205). -/
theorem effect_st {i : Instr} (hi : ∀ x, i ≠ .ldStVx x) (s : State) : (effect i s).st = s.st := by
  cases i
  case ldStVx x => exact absurd rfl (hi x)
  case ldVxKey x => cases h : s.leastKey <;> simp [effect, h]
  all_goals simp [effect]

/-- The report of an unknown word and the end of its step write the outputs and the timers alone (R100). -/
theorem State.reportUnknown_step_within (s : State) (op : Word) (b : Byte) :
    Within { dt := true, st := true, tone := true, report := true, draw := true } s
      ((s.beginStep.reportUnknown op).tickTone b) := by
  constructor <;> simp

/-- An ended run has faulted or finished (R36). -/
theorem State.status_of_ended {s : State} (h : s.ended = true) :
    s.status = if s.faulted then .fault else .finished := by
  unfold State.status
  cases hf : s.faulted with
  | true => rfl
  | false =>
    have hend : s.atEnd = true := by simpa [State.ended, hf] using h
    simp [hend]

/-! ### Ended runs -/

/-- One key write and one step of a run that has ended. -/
theorem runWithKeys_cons_of_ended {s : State} (h : s.faulted = true ∨ s.pend.toNat ≤ s.pc.toNat) (k : Keypad)
    (rest : List Keypad) : runWithKeys (k :: rest) s = runWithKeys rest (s.setKeys k).idleStep :=
  runWithKeys_cons (step_idle (s := s.setKeys k) h) rest

/-- From an idle state whose outputs are false every run leaves all but the keypad. -/
theorem runWithKeys_of_idle {keys : List Keypad} {s : State} (h : s.faulted = true ∨ s.pend.toNat ≤ s.pc.toNat)
    (hidle : s.idleStep = s) : runWithKeys keys s = .next (s.setKeys (keys.getLastD s.keys)) := by
  induction keys generalizing s with
  | nil => rfl
  | cons k rest ih =>
    have hk : (s.setKeys k).idleStep = s.setKeys k := congrArg (State.setKeys · k) hidle
    rw [runWithKeys_cons_of_ended h, hk, ih (s := s.setKeys k) h hk, List.getLastD_cons]
    rfl

/-! ### Hangs -/

/-- THE INDUCTION OVER A HANG: a property that no ended state has and that every key write and the step after it keep
makes a run hang. -/
theorem hangs_of_invariant {P : State → Prop} {keys : Nat → Keypad} (hend : ∀ s, P s → s.ended = false)
    (hstep : ∀ n s, P s → ∃ t, step (s.setKeys (keys n)) = .next t ∧ P t) {s : State} (hs : P s) : Hangs s keys := by
  have hrun : ∀ n, ∃ t, runWithKeys ((List.range n).map keys) s = .next t ∧ P t := by
    intro n
    induction n with
    | zero => exact ⟨s, rfl, hs⟩
    | succ n ih =>
      obtain ⟨t, ht, hPt⟩ := ih
      obtain ⟨u, hu, hPu⟩ := hstep n t hPt
      refine ⟨u, ?_, hPu⟩
      rw [List.range_succ, List.map_append, runWithKeys_append ht]
      exact runWithKeys_cons hu []
  intro n
  obtain ⟨t, ht, hPt⟩ := hrun n
  exact ⟨t, ht, hend t hPt⟩

theorem State.Executes.not_ended {s : State} (h : s.Executes) : s.ended = false := by
  rw [← Bool.not_eq_true, State.ended_iff, not_or]
  exact ⟨by simp [h.1], Nat.not_le_of_lt h.2.1⟩

/-- Fx0A with no key pressed has no effect (R202). -/
theorem effect_ldVxKey_none {s : State} {x : Reg} (h : s.leastKey = none) : effect (.ldVxKey x) s = s := by
  simp [effect, h]

/-- The step of Fx0A with no key pressed changes nothing but the timers and the per-step outputs. -/
theorem step_ldVxKey_none {s : State} {x : Reg} (hs : s.Executes) (hi : decodeWord s.fetchOp = .ok (.ldVxKey x))
    (h : s.leastKey = none) : step s = .next (s.beginStep.tickTone s.st) := by
  rw [step_of_faultOf_none hs hi rfl, effect_ldVxKey_none (s := s.beginStep) h]

theorem leastKey_setKeys_none (s : State) : (s.setKeys Keypad.none).leastKey = none := by
  rw [leastKey_eq_none]
  intro k hk
  show (Vector.replicate 16 false)[k]?.getD false = false
  simp [hk]

end Sys2Proof.Machine

section
open Sys2Proof Sys2Proof.Machine

/-- Settles O7: the instruction answers a state, and the step ends with the tick and TONE unless that state is faulted. -/
theorem stepRunsTheDecodedInstruction : Obligations.StepRunsTheDecodedInstruction := by
  intro s i hs hi
  obtain ⟨t, ht⟩ := exists_exec_next i s.beginStep
  have hstep := step_of_exec hs hi ht
  refine ⟨t, ht, fun hf => ?_, fun hf => ?_⟩
  · rw [hstep, State.endStep_of_not_faulted _ hf]
    rfl
  · rw [hstep, State.endStep_of_faulted _ hf]

/-- Settles O8: a fault is latched and an unknown word is reported, so both answer a next state. -/
theorem everyStepAnswersANextState : Obligations.EveryStepAnswersANextState :=
  ⟨exists_step_next, exists_exec_next⟩

/-- Settles O9: the step of an unknown word is the report, the tick and TONE. -/
theorem unknownOpcodeIsReportedAndPassed : Obligations.UnknownOpcodeIsReportedAndPassed := by
  rintro s op hs rfl hop
  exact ⟨_, step_of_unknown hs hop, rfl, rfl, rfl, rfl, toNat_countDown s.dt, toNat_countDown s.st, rfl,
    s.reportUnknown_step_within _ _⟩

/-- Settles O10: both kinds of step idle, and a PC at or past 0x1000 is at or past PEND. -/
theorem finishedAndFaultedStepsIdle : Obligations.FinishedAndFaultedStepsIdle := fun _ =>
  ⟨fun hf => step_idle (.inl hf), fun hpc => step_idle (.inr hpc), fun hpend hpc => step_idle (.inr (hpend.trans hpc))⟩

/-- Settles O11: the three clauses are the branches of the status. -/
theorem statusIsComputedFromTheState : Obligations.StatusIsComputedFromTheState := by
  intro s
  refine ⟨fun hf => ?_, fun hf hpc => ?_, fun hf hpc => ?_⟩
  · have hended := State.ended_iff.mpr (.inl hf)
    exact ⟨by simp [State.status_of_ended hended, hf], hended⟩
  · have hended := State.ended_iff.mpr (.inr hpc)
    exact ⟨by simp [State.status_of_ended hended, hf], hended⟩
  · simp [State.status, State.ended, State.atEnd, hf, hpc]

/-- Settles O12: the first step clears the outputs and every later one leaves all but the keypad. -/
theorem endedRunsStayEnded : Obligations.EndedRunsStayEnded := by
  intro keys s h
  cases keys with
  | nil => exact ⟨s, rfl, rfl, rfl, fun hne => absurd rfl hne⟩
  | cons k rest =>
    refine ⟨_, (runWithKeys_cons_of_ended h k rest).trans (runWithKeys_of_idle h rfl), rfl, ?_, fun _ => ⟨rfl, rfl, rfl⟩⟩
    rw [List.getLastD_cons]
    rfl

/-- Settles O13: either step leaves PC, PEND, the fault flag and memory, so the same word is executed again. -/
theorem hangsAreKept : Obligations.HangsAreKept := by
  constructor
  · intro s nnn hs hi hpc keys
    refine hangs_of_invariant
      (P := fun u => u.Executes ∧ decodeWord u.fetchOp = .ok (.jp nnn) ∧ u.pc.toNat = nnn.toNat)
      (fun u hu => hu.1.not_ended) (fun n u hu => ?_) ⟨hs, hi, hpc⟩
    obtain ⟨hu, hui, hupc⟩ := hu
    exact ⟨_, step_selfJump (s := u.setKeys (keys n)) hu hui hupc, hu, hui, hupc⟩
  · intro s x hs hi keys hkeys
    refine hangs_of_invariant (P := fun u => u.Executes ∧ decodeWord u.fetchOp = .ok (.ldVxKey x))
      (fun u hu => hu.1.not_ended) (fun n u hu => ?_) ⟨hs, hi⟩
    obtain ⟨hu, hui⟩ := hu
    rw [hkeys n]
    exact ⟨_, step_ldVxKey_none (s := u.setKeys Keypad.none) hu hui (leastKey_setKeys_none u), hu, hui⟩

/-- Settles O14: the fetch is checked after PEND, and both bounds together leave one PC. -/
theorem fetchPastMemoryTakesPcRange : Obligations.FetchPastMemoryTakesPcRange := by
  intro s hf hpc hfetch
  refine ⟨⟨_, step_pcRange hf hpc hfetch, rfl, rfl, raiseFault_taken s.beginStep _ _⟩, fun hpend => ⟨?_, ?_⟩⟩
  · refine BitVec.eq_of_toNat_eq ?_
    show s.pc.toNat = 0xFFF
    omega
  · refine BitVec.eq_of_toNat_eq ?_
    show s.pend.toNat = 0x1000
    omega

/-- Settles O15: a step that takes no fault ends with the tick of what its effect left in the timers. -/
theorem timersCountExecutedSteps : Obligations.TimersCountExecutedSteps := by
  intro s t i hs hi h hf
  cases hc : faultOf i s.beginStep with
  | some c =>
    cases (step_of_faultOf hs hi hc).symm.trans h
    cases hf
  | none =>
    cases (step_of_faultOf_none hs hi hc).symm.trans h
    rw [State.tickTone_dt, State.tickTone_st, toNat_countDown, toNat_countDown]
    refine ⟨rfl, ?_, ?_⟩
    · split
      · rfl
      · next hi' => rw [effect_dt (fun x hx => hi' x hx)]; rfl
    · split
      · rfl
      · next hi' => rw [effect_st (fun x hx => hi' x hx)]; rfl

/-- Settles O16: no step writes them, whichever way it goes. -/
theorem noStepWritesKeysPendOrSpec : Obligations.NoStepWritesKeysPendOrSpec := by
  intro s t h
  rcases step_inversion h with ⟨-, rfl⟩ | ⟨-, -, c, rfl⟩ | ⟨-, i, -, -, rfl⟩ | ⟨-, rfl⟩
  · exact ⟨rfl, rfl, rfl⟩
  · exact ⟨rfl, rfl, rfl⟩
  · simp
  · exact ⟨rfl, rfl, rfl⟩

end

/-! ## Whole-machine rules: what an effect writes, and the invariant (spec/10_state.md, spec/20_memory.md) -/

namespace Sys2Proof.Machine

/-! ### Memory: the bytes stored -/

/-- The bytes an instruction stores from I on, ascending (R51). `effect_mem` ties it to the effect. -/
def storedBytes (i : Instr) (s : State) : List Byte :=
  match i with
  | .ldBcd x => bcdDigits (s.reg x)
  | .stRegs x => s.regsUpTo x
  | _ => []

theorem effect_mem (i : Instr) (s : State) :
    (effect i s).mem = Memory.writeBytes s.mem s.i.toNat (storedBytes i s) := by
  cases i
  case ldBcd x => rfl
  case stRegs x => simp [effect, storedBytes]; rfl
  case ldVxKey x => cases h : s.leastKey <;> simp [effect, h, storedBytes] <;> rfl
  all_goals simp [effect]; rfl

/-- The addresses written are those of the stored bytes, all of them inside memory (R57). -/
theorem dataWrites_of_faultOf_none {i : Instr} {s : State} (h : faultOf i s = none) :
    dataWrites i s = List.range' s.i.toNat (storedBytes i s).length ∧
      ∀ a ∈ dataWrites i s, a < Config.memSize := by
  cases i
  case ldBcd x =>
    have hI : s.i.toNat + 2 < 0x1000 := by simp [faultOf] at h; omega
    simp only [dataWrites, if_pos hI, List.mem_range'_1]
    exact ⟨rfl, fun a ha => show a < 4096 by omega⟩
  case stRegs x =>
    have hI : s.i.toNat + x.toNat < 0x1000 := by simp [faultOf] at h; omega
    simp only [dataWrites, if_pos hI, List.mem_range'_1]
    exact ⟨by rw [storedBytes, State.length_regsUpTo], fun a ha => show a < 4096 by omega⟩
  all_goals exact ⟨rfl, fun a ha => by cases ha⟩

theorem dataWrites_of_faultOf {i : Instr} {s : State} {c : Fault} (h : faultOf i s = some c) : dataWrites i s = [] := by
  cases i
  case ldBcd x =>
    have hI : ¬ s.i.toNat + 2 < 0x1000 := by simp [faultOf] at h; omega
    exact if_neg hI
  case stRegs x =>
    have hI : ¬ s.i.toNat + x.toNat < 0x1000 := by simp [faultOf] at h; omega
    exact if_neg hI
  all_goals rfl

/-! ### The screen -/

/-- An effect leaves the screen, clears it, or flips pixels on it (R180, R181). -/
theorem effect_fb (i : Instr) (s : State) :
    (effect i s).fb = s.fb ∨ (effect i s).fb = [] ∨
      ∃ x y n, (effect i s).fb = (xorPixels s.fb 0 (s.touchedPixels x y n)).1 := by
  cases i
  case cls => exact .inr (.inl rfl)
  case drw x y n => exact .inr (.inr ⟨x, y, n, rfl⟩)
  case ldVxKey x => cases h : s.leastKey <;> simp [effect, h]
  all_goals exact .inl (by simp [effect])

/-! ### The stack -/

/-- Outside 2nnn and 00EE the stack and its pointer stay (R52). -/
theorem effect_stack {i : Instr} (h : reachesStack i = false) (s : State) :
    (effect i s).sp = s.sp ∧ (effect i s).stack = s.stack := by
  cases i
  case call => cases h
  case ret => cases h
  case ldVxKey x => cases h : s.leastKey <;> simp [effect, h]
  all_goals simp [effect]

/-- A push that is no fault counts SP up without wrapping, a pop counts it down (R29). -/
theorem effect_sp_le {i : Instr} {s : State} (hc : faultOf i s = none) (h : s.sp.toNat ≤ 16) :
    (effect i s).sp.toNat ≤ 16 := by
  cases hr : reachesStack i with
  | false => rw [(effect_stack hr s).1]; exact h
  | true =>
    cases i
    case call nnn =>
      have hne : s.sp ≠ 16 := by simpa [faultOf] using hc
      show (s.sp + 1).toNat ≤ 16
      bv_omega
    case ret =>
      have hne : s.sp ≠ 0 := by simpa [faultOf] using hc
      show (s.sp - 1).toNat ≤ 16
      bv_omega
    all_goals cases hr

/-- A stack entry is as it was, or the return address of 2nnn (R113). -/
theorem effect_stackAt (i : Instr) (s : State) (k : Nat) :
    (effect i s).stackAt k = s.stackAt k ∨ (effect i s).stackAt k = s.pc + 2 := by
  cases hr : reachesStack i with
  | false => exact .inl (by unfold State.stackAt; rw [(effect_stack hr s).2])
  | true =>
    cases i
    case call nnn =>
      simp only [effect, State.setPc_keeps, State.stackAt_push]
      split
      · exact .inr rfl
      · exact .inl rfl
    case ret => exact .inl rfl
    all_goals cases hr

/-! ### PC -/

/-- From a PC that was fetched from, an effect leaves PC at most at 0x10FE, the longest Bnnn (R25). -/
theorem effect_pc_le {s : State} (hpc : s.pc.toNat ≤ 0xFFE) (hstack : ∀ k, (s.stackAt k).toNat ≤ 0x1000)
    (i : Instr) : (effect i s).pc.toNat ≤ 0x10FE := by
  have h2 : (s.pc + 2).toNat ≤ 0x10FE := by bv_omega
  have hskip : ∀ c : Bool, (s.skipIf c).pc.toNat ≤ 0x10FE := by
    intro c
    rw [State.skipIf_pc]
    split
    · bv_omega
    · exact h2
  have haddr : ∀ nnn : Addr, (zextAddr nnn).toNat ≤ 0xFFF := fun nnn => by
    rw [zextAddr_toNat]; exact Nat.le_of_lt_succ nnn.isLt
  cases i
  case ret => exact (hstack _).trans (by decide)
  case jp nnn => exact (haddr nnn).trans (by decide)
  case call nnn => exact (haddr nnn).trans (by decide)
  case jpV0 nnn =>
    have hn := haddr nnn
    have hb : (zextByte s.jumpBase).toNat ≤ 0xFF := by rw [zextByte_toNat]; exact Nat.le_of_lt_succ s.jumpBase.isLt
    show (zextAddr nnn + zextByte s.jumpBase).toNat ≤ 0x10FE
    rw [BitVec.toNat_add]
    omega
  case seImm => exact hskip _
  case sneImm => exact hskip _
  case seReg => exact hskip _
  case sneReg => exact hskip _
  case skp => exact hskip _
  case sknp => exact hskip _
  case ldVxKey x =>
    cases h : s.leastKey with
    | none => simp only [effect, h, Option.elim_none]; omega
    | some k => simpa [effect, h] using h2
  all_goals simpa [effect] using h2

/-! ### The invariant -/

/-- Clearing UNK and DRAW keeps the invariant. -/
theorem State.Inv.beginStep {s : State} (h : s.Inv) : s.beginStep.Inv where
  __ := h
  faultedIdle hf := ⟨(h.faultedIdle hf).1, (h.faultedIdle hf).2.1, rfl, rfl⟩
  oneReport := by rintro ⟨hunk, -⟩; cases hunk

theorem State.Inv.idleStep {s : State} (h : s.Inv) : s.idleStep.Inv where
  __ := h
  faultedIdle hf := ⟨(h.faultedIdle hf).1, rfl, rfl, rfl⟩
  oneReport := by rintro ⟨hunk, -⟩; cases hunk

/-- Taking a fault below PEND, with an opcode unless it is PC_RANGE, keeps the invariant (R220, R224). -/
theorem State.Inv.raiseFault {s : State} (h : s.Inv) (hpc : s.pc.toNat < s.pend.toNat) (hunk : s.unk = false)
    (hdraw : s.draw = false) (c : Fault) (op : Word) :
    (s.raiseFault c (if c = .pcRange then none else some op)).Inv where
  __ := h
  recordEmpty hf := by cases hf
  recordFull _ := ⟨c, rfl, rfl, by simp⟩
  faultedIdle _ := ⟨hpc, rfl, hunk, hdraw⟩

/-- The tick and TONE keep the invariant where no fault is latched. -/
theorem State.Inv.tickTone {s : State} (h : s.Inv) (hf : s.faulted = false) (b : Byte) : (s.tickTone b).Inv where
  __ := h
  faultedIdle hf' := by cases hf.symm.trans hf'

theorem State.Inv.reportUnknown {s : State} (h : s.Inv) (hf : s.faulted = false) (hpc : s.pc.toNat ≤ 0xFFE)
    (hdraw : s.draw = false) (op : Word) : (s.reportUnknown op).Inv where
  __ := h
  pcInRange := by rw [State.reportUnknown_pc]; bv_omega
  recordFull hf' := by cases hf.symm.trans hf'
  faultedIdle hf' := by cases hf.symm.trans hf'
  oneReport := by rintro ⟨-, hd⟩; cases hdraw.symm.trans hd

/-- The screen after an effect is canonical, inside its space, and made of 1s. -/
theorem State.Inv.effect_screen {s : State} (h : s.Inv) (i : Instr) :
    Framebuffer.wf (effect i s).fb = true ∧ (∀ c ∈ (effect i s).fb, c.1 < s.spec.videoWidth * s.spec.videoHeight) ∧
      ∀ c ∈ (effect i s).fb, c.2 = 1 := by
  have hspec := h.specLegal
  simp only [PlatformSpec.wellFormed, Bool.and_eq_true, decide_eq_true_eq] at hspec
  obtain ⟨⟨⟨hw, hh⟩, -⟩, -⟩ := hspec
  rcases effect_fb i s with hfb | hfb | ⟨x, y, n, hfb⟩ <;> rw [hfb]
  · exact ⟨h.fbWf, h.fbOnScreen, h.fbBits⟩
  · exact ⟨rfl, by simp, by simp⟩
  · exact xorPixels_keeps _ _ _ _ h.fbWf h.fbOnScreen h.fbBits fun k hk => touchedPixels_lt hw hh hk

/-- A cell of memory after an effect lies inside memory. -/
theorem State.Inv.effect_memInSpace {s : State} (h : s.Inv) {i : Instr} (hc : faultOf i s = none) :
    ∀ c ∈ (effect i s).mem, c.1 < Config.memSize := by
  obtain ⟨hwrites, hspace⟩ := dataWrites_of_faultOf_none hc
  intro c hcell
  rw [effect_mem] at hcell
  rcases Cells.mem_writeBytes hcell with hnew | hold
  · exact hspace c.1 (by rw [hwrites, List.mem_range'_1]; exact hnew)
  · exact h.memInSpace c hold

/-- An effect keeps the invariant. -/
theorem State.Inv.effect {s : State} (h : s.Inv) (hs : s.Executes) (hunk : s.unk = false) {i : Instr}
    (hc : faultOf i s = none) : (Machine.effect i s).Inv where
  specLegal := by simpa using h.specLegal
  memWf := by rw [effect_mem]; exact Memory.writeBytes_wf _ _ h.memWf
  memInSpace := h.effect_memInSpace hc
  fbWf := (h.effect_screen i).1
  fbOnScreen := by simpa using (h.effect_screen i).2.1
  fbBits := (h.effect_screen i).2.2
  spInRange := effect_sp_le hc h.spInRange
  stackInRange k := by
    have hpc := hs.2.2
    rcases effect_stackAt i s k with hk | hk <;> rw [hk]
    · exact h.stackInRange k
    · bv_omega
  pcInRange := effect_pc_le hs.2.2 h.stackInRange i
  pendInRange := by simpa using h.pendInRange
  recordEmpty := by simpa using h.recordEmpty
  recordFull := by simp [hs.1]
  faultedIdle := by simp [hs.1]
  oneReport := by simp [hunk]

theorem State.Inv.step {s t : State} (h : s.Inv) (hst : Machine.step s = .next t) : t.Inv := by
  rcases step_inversion hst with ⟨-, rfl⟩ | ⟨-, hpc, c, rfl⟩ | ⟨hs, i, -, hc, rfl⟩ | ⟨hs, rfl⟩
  · exact h.idleStep
  · exact h.beginStep.raiseFault hpc rfl rfl c _
  · exact (h.beginStep.effect hs rfl hc).tickTone (by simpa using hs.1) _
  · exact (h.beginStep.reportUnknown hs.1 hs.2.2 rfl _).tickTone hs.1 _

end Sys2Proof.Machine

section
open Sys2Proof Sys2Proof.Machine

/-- Settles O20: each of the ways a step can go keeps the invariant. -/
theorem everyStepKeepsTheInvariant : Obligations.EveryStepKeepsTheInvariant := fun _ _ h hst => h.step hst

/-- Settles O21: no effect, no fault and no idle step takes SP out of its range; both faults leave the stack. -/
theorem stackPointerNeverWraps : Obligations.StackPointerNeverWraps := by
  refine ⟨fun s t hsp h => ?_, fun s nnn hsp => ?_, fun s hsp => ?_⟩
  · rcases step_inversion h with ⟨-, rfl⟩ | ⟨-, -, c, rfl⟩ | ⟨-, i, -, hc, rfl⟩ | ⟨-, rfl⟩
    · exact hsp
    · exact hsp
    · exact effect_sp_le hc hsp
    · exact hsp
  · exact ⟨_, exec_call_fault hsp, rfl, rfl, rfl, rfl⟩
  · exact ⟨_, exec_ret_fault hsp, rfl, rfl, rfl, rfl⟩

/-- Settles O22: of the ways a step can go only the fault sets FAULTED, and it writes the record and the outputs alone. -/
theorem faultsArePrecise : Obligations.FaultsArePrecise := by
  intro s t hf h ht
  rcases step_inversion h with ⟨-, rfl⟩ | ⟨-, -, c, rfl⟩ | ⟨-, i, -, -, rfl⟩ | ⟨-, rfl⟩
  · cases hf.symm.trans ht
  · exact ⟨c, rfl⟩
  · have hkept : ((effect i s.beginStep).tickTone s.st).faulted = s.faulted := by simp
    cases (hf.symm.trans hkept.symm).trans ht
  · cases hf.symm.trans ht

/-- Settles O23: an instruction latches the fault it raises, or its effect leaves the record empty. -/
theorem faultCausesAreTheListedOnes : Obligations.FaultCausesAreTheListedOnes := by
  intro i s t _ hcause h
  have hlatched : t.faultCause = faultOf i s := by
    cases hc : faultOf i s with
    | some c => cases (exec_of_faultOf hc).symm.trans h; rfl
    | none => cases (exec_of_faultOf_none hc).symm.trans h; simp [hcause]
  rw [hlatched]
  cases i <;> rfl

end

/-! ## Non-interference (spec/20_memory.md section 1): what an instruction does not read -/

namespace Sys2Proof.Machine

/-- An update of the state that neither the fault nor the effect of an instruction sees passes through it. -/
theorem exec_commutes {i : Instr} {s : State} (f : State → State) (hfault : faultOf i (f s) = faultOf i s)
    (heffect : effect i (f s) = f (effect i s)) (hraise : ∀ c op, (f s).raiseFault c op = f (s.raiseFault c op)) :
    exec i (f s) = mapNext f (exec i s) := by
  cases hc : faultOf i s with
  | some c => rw [exec_of_faultOf (hfault.trans hc), exec_of_faultOf hc, hraise]; rfl
  | none => rw [exec_of_faultOf_none (hfault.trans hc), exec_of_faultOf_none hc, heffect]; rfl

/-- Fx0A sees of an update what the update does to the keypad. -/
theorem effect_ldVxKey_commutes {s : State} {x : Reg} (f : State → State) (hkey : (f s).leastKey = s.leastKey)
    (hset : ∀ b, ((f s).setReg x b).advance = f (s.setReg x b).advance) :
    effect (.ldVxKey x) (f s) = f (effect (.ldVxKey x) s) := by
  unfold effect
  rw [hkey]
  cases s.leastKey with
  | none => rfl
  | some k => exact hset _

theorem effect_setScreen {i : Instr} (h : reachesScreen i = false) (s : State) (fb : Framebuffer) :
    effect i { s with fb := fb } = { effect i s with fb := fb } := by
  cases i
  case cls => cases h
  case drw => cases h
  case ldVxKey x => exact effect_ldVxKey_commutes (fun t => { t with fb := fb }) rfl fun _ => rfl
  all_goals simp only [effect, State.skipIf_eq, State.bumpIndex_eq]; rfl

theorem effect_setKeys {i : Instr} (h : reachesKeys i = false) (s : State) (keys : Keypad) :
    effect i { s with keys := keys } = { effect i s with keys := keys } := by
  cases i
  case skp => cases h
  case sknp => cases h
  case ldVxKey => cases h
  all_goals simp only [effect, State.skipIf_eq, State.bumpIndex_eq]; rfl

theorem effect_setStack {i : Instr} (h : reachesStack i = false) (s : State) (st : Vector Word 16) (sp : BitVec 5) :
    effect i { s with stack := st, sp := sp } = { effect i s with stack := st, sp := sp } := by
  cases i
  case call => cases h
  case ret => cases h
  case ldVxKey x => exact effect_ldVxKey_commutes (fun t => { t with stack := st, sp := sp }) rfl fun _ => rfl
  all_goals simp only [effect, State.skipIf_eq, State.bumpIndex_eq]; rfl

theorem faultOf_setStack {i : Instr} (h : reachesStack i = false) (s : State) (st : Vector Word 16) (sp : BitVec 5) :
    faultOf i { s with stack := st, sp := sp } = faultOf i s := by
  cases i
  case call => cases h
  case ret => cases h
  all_goals rfl

/-- SPEC with other values in the three settings no instruction reads (R144, R186, R229). -/
def withIdleSettings (p : PlatformSpec) (a b : Bool) (r : Nat) : PlatformSpec :=
  { p with tickRate := r, quirks := { p.quirks with vfResetOnAdd := a, verticalBlankSync := b } }

theorem effect_setIdleSettings (i : Instr) (s : State) (a b : Bool) (r : Nat) :
    effect i { s with spec := withIdleSettings s.spec a b r } =
      { effect i s with spec := withIdleSettings s.spec a b r } := by
  cases i
  case drw x y n =>
    have htouched : State.touchedPixels { s with spec := withIdleSettings s.spec a b r } x y n =
        s.touchedPixels x y n := State.touchedPixels_congr rfl rfl rfl (fun _ _ => rfl) rfl rfl rfl
    simp only [effect, htouched]
    rfl
  case ldVxKey x =>
    exact effect_ldVxKey_commutes (fun t => { t with spec := withIdleSettings s.spec a b r }) rfl fun _ => rfl
  all_goals simp only [effect, State.skipIf_eq, State.bumpIndex_eq]; rfl

/-! ### Memory -/

/-- A draw that is no fault reads its n bytes (R51). -/
theorem mem_dataReads_drw {s : State} {x y : Reg} {n : Nibble} (hc : faultOf (.drw x y n) s = none) {k : Nat}
    (hk : k < n.toNat) : s.i.toNat + k ∈ dataReads (.drw x y n) s := by
  have hI : s.i.toNat + n.toNat ≤ 0x1000 := by simp [faultOf] at hc; omega
  simp only [dataReads, if_pos hI, List.mem_range'_1]
  omega

/-- An Fx65 that is no fault reads the bytes at I to I + x (R51). -/
theorem mem_dataReads_ldRegs {s : State} {x : Reg} (hc : faultOf (.ldRegs x) s = none) {k : Nat} (hk : k ≤ x.toNat) :
    s.i.toNat + k ∈ dataReads (.ldRegs x) s := by
  have hI : s.i.toNat + x.toNat < 0x1000 := by simp [faultOf] at hc; omega
  simp only [dataReads, if_pos hI, List.mem_range'_1]
  omega

theorem State.loadRegsFrom_setMem {s : State} {x : Reg} {a : Nat} {m : Memory}
    (h : ∀ k, k ≤ x.toNat → Memory.read m (a + k) = s.readMem (a + k)) :
    State.loadRegsFrom { s with mem := m } x a = { s.loadRegsFrom x a with mem := m } := by
  have hbyte : ∀ k : Fin 16, (if k.val ≤ x.toNat then Memory.read m (a + k.val) else s.v[k]) =
      if k.val ≤ x.toNat then s.readMem (a + k.val) else s.v[k] := by
    intro k
    split
    · next hk => exact h k.val hk
    · rfl
  exact congrArg (fun v => ({ s with v := Vector.ofFn v, mem := m } : State)) (funext hbyte)

/-- Over another memory that agrees on the bytes read, an effect is the same but for memory, to which it stores the same
bytes. -/
theorem effect_setMem {i : Instr} {s : State} {m : Memory} (hc : faultOf i s = none)
    (h : ∀ a ∈ dataReads i s, Memory.read m a = s.readMem a) :
    effect i { s with mem := m } = { effect i s with mem := Memory.writeBytes m s.i.toNat (storedBytes i s) } := by
  cases i
  case drw x y n =>
    have htouched : State.touchedPixels { s with mem := m } x y n = s.touchedPixels x y n :=
      State.touchedPixels_congr rfl rfl rfl (fun k hk => h _ (mem_dataReads_drw hc hk)) rfl rfl rfl
    simp only [effect, htouched]
    rfl
  case ldRegs x =>
    have hload : State.loadRegsFrom { s with mem := m } x s.i.toNat = { s.loadRegsFrom x s.i.toNat with mem := m } :=
      State.loadRegsFrom_setMem fun k hk => h _ (mem_dataReads_ldRegs hc hk)
    simp only [effect, hload, State.bumpIndex_eq]
    rfl
  case ldVxKey x => exact effect_ldVxKey_commutes (fun t => { t with mem := m }) rfl fun _ => rfl
  all_goals simp only [effect, State.skipIf_eq, State.bumpIndex_eq]; rfl

/-- Memory after an effect, byte by byte: the bytes written do not depend on the memory before, and the others stay. -/
theorem read_writeBytes_storedBytes {i : Instr} {s : State} (hc : faultOf i s = none) (m m' : Memory) (a : Nat) :
    (a ∈ dataWrites i s → Memory.read (Memory.writeBytes m s.i.toNat (storedBytes i s)) a =
      Memory.read (Memory.writeBytes m' s.i.toNat (storedBytes i s)) a) ∧
    (a ∉ dataWrites i s → Memory.read (Memory.writeBytes m s.i.toNat (storedBytes i s)) a = Memory.read m a) := by
  rw [(dataWrites_of_faultOf_none hc).1, List.mem_range'_1, Memory.read_writeBytes, Memory.read_writeBytes]
  refine ⟨fun ha => ?_, fun ha => ?_⟩
  · rw [dif_pos ha, dif_pos ha]
  · rw [dif_neg ha]

end Sys2Proof.Machine

section
open Sys2Proof Sys2Proof.Machine

/-- Settles O24: both runs take the same fault, or have the same effect with the same bytes stored. -/
theorem instructionsReachOnlyTheirBytes : Obligations.InstructionsReachOnlyTheirBytes := by
  intro i s m h
  have hfault : faultOf i { s with mem := m } = faultOf i s := by cases i <;> rfl
  cases hc : faultOf i s with
  | some c =>
    refine ⟨_, _, exec_of_faultOf hc, exec_of_faultOf (hfault.trans hc), rfl, fun a ha => ?_, fun a _ => ⟨rfl, rfl⟩⟩
    rw [dataWrites_of_faultOf hc] at ha
    cases ha
  | none =>
    have hexec := exec_of_faultOf_none (hfault.trans hc)
    rw [effect_setMem hc h] at hexec
    refine ⟨_, _, exec_of_faultOf_none hc, hexec, rfl, fun a ha => ?_, fun a ha => ⟨?_, ?_⟩⟩
    · show Memory.read (Memory.writeBytes m _ _) a = Memory.read (effect i s).mem a
      rw [effect_mem]
      exact (read_writeBytes_storedBytes hc m s.mem a).1 ha
    · show Memory.read (effect i s).mem a = Memory.read s.mem a
      rw [effect_mem]
      exact (read_writeBytes_storedBytes hc s.mem m a).2 ha
    · exact (read_writeBytes_storedBytes hc m s.mem a).2 ha

/-- Settles O25: outside the named instructions neither the fault nor the effect sees the store. -/
theorem separateStoresAreReachedOnlyByTheirInstructions :
    Obligations.SeparateStoresAreReachedOnlyByTheirInstructions := by
  refine fun i s => ⟨fun h fb => ?_, fun h keys => ?_, fun h st sp => ?_⟩
  · exact exec_commutes (fun t => { t with fb := fb }) (by cases i <;> rfl) (effect_setScreen h s fb) fun _ _ => rfl
  · exact exec_commutes (fun t => { t with keys := keys }) (by cases i <;> rfl) (effect_setKeys h s keys) fun _ _ => rfl
  · exact exec_commutes (fun t => { t with stack := st, sp := sp }) (faultOf_setStack h s st sp)
      (effect_setStack h s st sp) fun _ _ => rfl

/-- Settles O26: neither the fault nor the effect of an instruction sees the three settings. -/
theorem threeSettingsHaveNoEffect : Obligations.ThreeSettingsHaveNoEffect := by
  intro i s a b r
  exact exec_commutes (fun t => { t with spec := withIdleSettings s.spec a b r }) (by cases i <;> rfl)
    (effect_setIdleSettings i s a b r) fun _ _ => rfl

end

/-! ## Load (spec/70_reset_and_hazards.md section 1) -/

namespace Sys2Proof.Machine

theorem load_eq_ok_iff {bytes font : List Byte} {spec : PlatformSpec} {s : State} :
    load bytes spec font = .ok s ↔ bytes.length ≤ 3584 ∧ spec.wellFormed = true ∧ font.length = 16 * spec.glyphSize ∧
      s = loadedState bytes spec font := by
  unfold load programWellFormed fontWellFormed
  by_cases hb : bytes.length ≤ 3584
  · cases hs : spec.wellFormed
    · simp [hb]
    · by_cases hf : font.length = 16 * spec.glyphSize
      · simp [hb, hf, eq_comm]
      · simp [hb, hf]
  · simp [hb]

theorem wellFormed_iff (p : PlatformSpec) :
    p.wellFormed = true ↔ 1 ≤ p.videoWidth ∧ 1 ≤ p.videoHeight ∧ 1 ≤ p.glyphSize ∧ p.glyphSize ≤ 32 := by
  simp [PlatformSpec.wellFormed, and_assoc]

theorem length_fontArea {font : List Byte} (h : font.length ≤ 0x200) : (fontArea font).length = 0x200 := by
  show (font ++ List.replicate (0x200 - font.length) 0).length = 0x200
  rw [List.length_append, List.length_replicate]
  omega

theorem getElem_fontArea (font : List Byte) (a : Nat) (h : a < (fontArea font).length) :
    (fontArea font)[a] = font.getD a 0 := by
  refine (List.getElem_append (l₁ := font) h).trans ?_
  split
  · next ha => rw [List.getD_eq_getElem _ _ ha]
  · next ha => rw [List.getElem_replicate, List.getD_eq_default _ _ (Nat.le_of_not_lt ha)]

/-- Past the reference FONT memory is 0 before a load (R54). -/
theorem loadByte_of_le {a : Nat} (h : 0x200 ≤ a) : Memory.loadByte a = 0 := by
  have hlen : Config.referenceFont.length = 80 := rfl
  exact List.getD_eq_default _ _ (by omega)

/-- MEM after load: FONT, the program, zeros (R54, R250). -/
theorem read_loadMemory {bytes font : List Byte} (h : font.length ≤ 0x200) (a : Nat) :
    Memory.read (loadMemory bytes font) a = if a < 0x200 then font.getD a 0 else bytes.getD (a - 0x200) 0 := by
  show Memory.read (Memory.writeBytes (Memory.writeBytes [] 0 (fontArea font)) 0x200 bytes) a = _
  rw [Memory.read_writeBytes, Memory.read_writeBytes]
  by_cases ha : a < 0x200
  · have hfont : 0 ≤ a ∧ a < 0 + (fontArea font).length := by rw [length_fontArea h]; omega
    rw [dif_neg (by omega), dif_pos hfont, if_pos ha]
    exact getElem_fontArea font a _
  · rw [if_neg ha]
    by_cases hb : a < 0x200 + bytes.length
    · rw [dif_pos ⟨by omega, hb⟩, List.getD_eq_getElem]
    · rw [dif_neg (by omega), dif_neg (by rw [length_fontArea h]; omega), List.getD_eq_default _ _ (by omega)]
      exact loadByte_of_le (by omega)

theorem loadMemory_wf (bytes font : List Byte) : Memory.wf (loadMemory bytes font) = true :=
  Memory.writeBytes_wf _ _ (Memory.writeBytes_wf _ _ rfl)

/-- A program that fits leaves nothing listed past memory. -/
theorem loadMemory_inSpace {bytes font : List Byte} (hb : bytes.length ≤ 3584) (hf : font.length ≤ 0x200) :
    ∀ c ∈ loadMemory bytes font, c.1 < Config.memSize := by
  intro c hc
  show c.1 < 4096
  rcases Cells.mem_writeBytes hc with hprogram | hc
  · have hlt : c.1 < 0x200 + bytes.length := hprogram.2
    omega
  · rcases Cells.mem_writeBytes hc with hfont | hc
    · rw [length_fontArea hf] at hfont
      omega
    · cases hc

/-- The reference FONT is what unlisted memory reads, so loading it lists nothing (log entry 1). -/
theorem loadMemory_nil_referenceFont : loadMemory [] Config.referenceFont = [] := by
  refine Memory.ext_of_read (loadMemory_wf _ _) rfl fun a => ?_
  rw [read_loadMemory (by decide)]
  show _ = Memory.loadByte a
  split
  · rfl
  · next ha => exact (loadByte_of_le (Nat.le_of_not_lt ha)).symm

/-- Over the reference FONT a load lists the program alone. -/
theorem loadMemory_referenceFont (bytes : List Byte) :
    loadMemory bytes Config.referenceFont = Memory.writeBytes [] 0x200 bytes := by
  have hload : ∀ font, loadMemory bytes font = Memory.writeBytes (loadMemory [] font) 0x200 bytes := fun _ => rfl
  rw [hload, loadMemory_nil_referenceFont]

theorem highByte_tableWord {w : Nat} (h : w < 65536) : highByte (tableWord 16 w) = BitVec.ofNat 8 (w / 256) := by
  refine BitVec.eq_of_toNat_eq ?_
  simp only [highByte, tableWord, BitVec.extractLsb'_toNat, BitVec.toNat_ofNat, Nat.shiftRight_eq_div_pow]
  omega

theorem lowByte_tableWord (w : Nat) : lowByte (tableWord 16 w) = BitVec.ofNat 8 (w % 256) := by
  refine BitVec.eq_of_toNat_eq ?_
  simp only [lowByte, tableWord, BitVec.extractLsb'_toNat, BitVec.toNat_ofNat, Nat.shiftRight_eq_div_pow]
  omega

/-- Placing a word at reset is loading the program of that word (R250; log entry 5). -/
theorem reset_withFetchWord {w : Nat} (h : w < 65536) : State.reset.withFetchWord 16 w =
    loadedState [BitVec.ofNat 8 (w / 256), BitVec.ofNat 8 (w % 256)] Config.referenceSpec Config.referenceFont := by
  unfold State.withFetchWord loadedState
  rw [highByte_tableWord h, lowByte_tableWord w, loadMemory_referenceFont]
  rfl

theorem toNat_pend_loadedState {bytes : List Byte} (h : bytes.length ≤ 3584) (spec : PlatformSpec) (font : List Byte) :
    (loadedState bytes spec font).pend.toNat = 0x200 + bytes.length := by
  show (BitVec.ofNat 16 (0x200 + bytes.length)).toNat = _
  rw [BitVec.toNat_ofNat]
  omega

theorem State.reset_stackAt (k : Nat) : State.reset.stackAt k = 0 := by
  show (Vector.replicate 16 (0 : Word))[k]?.getD 0 = 0
  rw [Vector.getElem?_replicate]
  split <;> rfl

theorem State.reset_key (k : Nat) : State.reset.key k = false := by
  show (Vector.replicate 16 false)[k]?.getD false = false
  rw [Vector.getElem?_replicate]
  split <;> rfl

theorem State.reset_reg (r : Reg) : State.reset.reg r = 0 := by
  show (Vector.replicate 16 (0 : Byte))[r.toNat] = 0
  rw [Vector.getElem_replicate]

theorem loadedState_inv {bytes font : List Byte} {spec : PlatformSpec} (hb : bytes.length ≤ 3584)
    (hs : spec.wellFormed = true) (hf : font.length = 16 * spec.glyphSize) : (loadedState bytes spec font).Inv where
  specLegal := hs
  memWf := loadMemory_wf bytes font
  memInSpace := by
    obtain ⟨-, -, -, hglyph⟩ := (wellFormed_iff spec).mp hs
    exact loadMemory_inSpace hb (by omega)
  fbWf := rfl
  fbOnScreen _ hc := by cases hc
  fbBits _ hc := by cases hc
  spInRange := Nat.zero_le _
  stackInRange k := (congrArg BitVec.toNat (State.reset_stackAt k)).le.trans (by decide)
  pcInRange := show 0x200 ≤ 0x10FE by decide
  pendInRange := by rw [toNat_pend_loadedState hb]; omega
  recordEmpty _ := ⟨rfl, rfl, rfl⟩
  recordFull hf' := by cases hf'
  faultedIdle hf' := by cases hf'
  oneReport := by rintro ⟨hunk, -⟩; cases hunk

theorem load_inv {bytes font : List Byte} {spec : PlatformSpec} {s : State} (h : load bytes spec font = .ok s) :
    s.Inv := by
  obtain ⟨hb, hs, hf, rfl⟩ := load_eq_ok_iff.mp h
  exact loadedState_inv hb hs hf

theorem load_nil_reference : load [] Config.referenceSpec Config.referenceFont = .ok State.reset := by
  rw [load_eq_ok_iff]
  refine ⟨by decide, rfl, rfl, ?_⟩
  show State.reset = { State.reset with mem := loadMemory [] Config.referenceFont }
  rw [loadMemory_nil_referenceFont]
  rfl

/-- Every run answers a state, whatever keys the host writes. -/
theorem exists_runWithKeys_next (keys : List Keypad) (s : State) : ∃ t, runWithKeys keys s = .next t := by
  induction keys generalizing s with
  | nil => exact ⟨s, rfl⟩
  | cons k rest ih =>
    obtain ⟨u, hu⟩ := exists_step_next (s.setKeys k)
    rw [runWithKeys_cons hu]
    exact ih u

end Sys2Proof.Machine

section
open Sys2Proof Sys2Proof.Machine

/-- Settles O18: the memory is written inside its space, and everything else is at its reset value. -/
theorem loadedStatesMeetTheInvariant : Obligations.LoadedStatesMeetTheInvariant := fun _ _ _ _ => load_inv

/-- Settles O19: every step answers a state, and key writes and steps keep the invariant. -/
theorem everyRunMeetsTheInvariant : Obligations.EveryRunMeetsTheInvariant := by
  refine ⟨fun _ _ _ s keys _ => exists_runWithKeys_next keys s, fun bytes spec font keys t hrun => ?_⟩
  obtain ⟨s, hload, hrun⟩ := hrun
  exact runWithKeys_keeps (fun _ k h => h.setKeys k) (fun _ _ h hst => h.step hst) (load_inv hload) hrun

/-- Settles O17: the state after reset is a loaded one. -/
theorem resetMeetsTheInvariant : Obligations.ResetMeetsTheInvariant := load_inv load_nil_reference

/-- Settles O57: the memory reads as FONT, the program and zeros, and everything else is at its reset value. -/
theorem loadBuildsTheStartState : Obligations.LoadBuildsTheStartState := by
  intro bytes spec font hb hw hh hg hg' hf
  refine ⟨_, load_eq_ok_iff.mpr ⟨hb, (wellFormed_iff spec).mpr ⟨hw, hh, hg, hg'⟩, hf, rfl⟩,
    fun a _ => read_loadMemory (by omega) a, toNat_pend_loadedState hb spec font, rfl, rfl, State.reset_reg, rfl, rfl,
    State.reset_stackAt, rfl, rfl, fun _ _ => rfl, State.reset_key, rfl, rfl, rfl, rfl, rfl, rfl, rfl, rfl⟩

/-- Settles O58: the length is checked first, and 3584 is the last length that passes. -/
theorem oversizedProgramIsRefused : Obligations.OversizedProgramIsRefused := by
  refine ⟨fun bytes spec font h => ?_, fun bytes h => ?_⟩
  · have hlong : programWellFormed bytes = false := by
      simpa [programWellFormed] using h
    simp [load, hlong]
  · refine ⟨_, load_eq_ok_iff.mpr ⟨h.le, rfl, rfl, rfl⟩, BitVec.eq_of_toNat_eq ?_⟩
    rw [toNat_pend_loadedState h.le, h]
    rfl

/-- Settles O59: loading the reference FONT lists nothing, and a placed word is a loaded program. -/
theorem resetIsTheEmptyLoad : Obligations.ResetIsTheEmptyLoad := by
  refine ⟨load_nil_reference, fun w hw => ?_⟩
  exact ⟨_, load_eq_ok_iff.mpr ⟨show 2 ≤ 3584 by decide, rfl, rfl, rfl⟩, (reset_withFetchWord hw).symm⟩

end

/-! ## Control transfer (spec/41_control_transfer.md): return, call, the indirect jump and the register skips -/

namespace Sys2Proof.Machine

theorem exec_jpV0 (nnn : Addr) (s : State) :
    exec (.jpV0 nnn) s = .next (s.setPc (zextAddr nnn + zextByte s.jumpBase)) := rfl

theorem exec_seReg (x y : Reg) (s : State) : exec (.seReg x y) s = .next (s.skipIf (s.reg x == s.reg y)) := rfl

theorem exec_sneReg (x y : Reg) (s : State) : exec (.sneReg x y) s = .next (s.skipIf (s.reg x != s.reg y)) := rfl

theorem toNat_sp_sub_one {sp : BitVec 5} (h : sp ≠ 0) : (sp - 1).toNat = sp.toNat - 1 := by
  bv_omega

theorem sp_ne_sixteen {sp : BitVec 5} (h : sp.toNat < 16) : sp ≠ 16 := by
  bv_omega

theorem State.popPc_within (s : State) : Within { sp := true } s s.popPc := by
  constructor <;> simp

/-- A call writes the entry at SP, SP and PC (R113). -/
theorem State.push_setPc_within (s : State) (w pc : Word) :
    Within { stack := [s.sp.toNat], sp := true } s ((s.push w).setPc pc) := by
  constructor
  case stack =>
    intro k hk
    have hne : k ≠ s.sp.toNat := by simpa using hk
    simp [hne]
  all_goals simp

/-- The sum of Bnnn does not wrap: an address and a byte fit a word (R114). -/
theorem toNat_zextAddr_add_zextByte (a : Addr) (b : Byte) : (zextAddr a + zextByte b).toNat = a.toNat + b.toNat := by
  rw [BitVec.toNat_add, zextAddr_toNat, zextByte_toNat]
  omega

theorem State.toNat_jumpBase (s : State) :
    s.jumpBase.toNat = if s.spec.quirks.jumpAddsFirstRegister then (s.reg 0).toNat else 0 := by
  unfold State.jumpBase
  split <;> rfl

end Sys2Proof.Machine

section
open Sys2Proof Sys2Proof.Machine

/-- Settles O27: the pop, or the fault at SP = 0. -/
theorem returnPopsThePc : Obligations.ReturnPopsThePc := by
  refine ⟨rowDecodes_FFFF rfl, fun s => ⟨fun hsp => ?_, fun hsp => ?_⟩⟩
  · have hpop := toNat_sp_sub_one hsp
    exact ⟨_, exec_ret_ok hsp, hpop, congrArg s.stackAt hpop, s.popPc_within⟩
  · exact ⟨_, exec_ret_fault hsp, raiseFault_taken s _ _⟩

/-- Settles O29: the push at SP and the jump, or the fault at SP = 16. -/
theorem callPushesTheReturnAddress : Obligations.CallPushesTheReturnAddress := by
  refine ⟨rowDecodes_F000 fun _ => decodeWord_of_fieldC_2, fun s nnn => ⟨fun hsp => ?_, fun hsp => ?_⟩⟩
  · refine ⟨_, exec_call_ok (sp_ne_sixteen hsp), by simp [hsp], ?_, zextAddr_toNat nnn, s.push_setPc_within _ _⟩
    show (s.sp + 1).toNat = s.sp.toNat + 1
    bv_omega
  · exact ⟨_, _, exec_call_fault hsp, decodeWord_encode _, raiseFault_taken s _ _⟩

/-- Settles O30: the return pops the entry the call pushed, whatever happened elsewhere. -/
theorem callThenReturnComesBack : Obligations.CallThenReturnComesBack := by
  intro s nnn hsp
  refine ⟨_, exec_call_ok (sp_ne_sixteen hsp), fun u hstack husp => ?_⟩
  have husp' : u.sp = s.sp + 1 := husp
  have hback : u.sp - 1 = s.sp := by rw [husp', BitVec.add_sub_cancel]
  have hpushed : u.sp ≠ 0 := by rw [husp']; bv_omega
  refine ⟨_, exec_ret_ok hpushed, ?_, hback, hstack⟩
  rw [State.popPc_pc, hback, State.stackAt, hstack]
  exact (s.stackAt_push (s.pc + 2) s.sp.toNat).trans (if_pos ⟨rfl, hsp⟩)

/-- Settles O31: one write of PC, whose offset is V0 or nothing. -/
theorem indirectJumpAddsV0 : Obligations.IndirectJumpAddsV0 := by
  refine ⟨rowDecodes_F000 fun _ => decodeWord_of_fieldC_B, fun s nnn => ⟨_, exec_jpV0 nnn s, ?_, s.setPc_within _⟩⟩
  rw [State.setPc_pc, toNat_zextAddr_add_zextByte, State.toNat_jumpBase]

/-- Settles O33: both skips are one conditional skip, and their conditions are opposite. -/
theorem registerSkips : Obligations.RegisterSkips := by
  refine ⟨rowDecodes_F000 fun _ => decodeWord_of_fieldC_5, rowDecodes_F000 fun _ => decodeWord_of_fieldC_9,
    fun s x y => ⟨?_, ?_⟩⟩
  · exact ⟨_, exec_seReg x y s, by simp, s.skipIf_within _⟩
  · exact ⟨_, exec_sneReg x y s, by simp, s.skipIf_within _⟩

end

/-! ## Registers and ALU (spec/42_register_alu.md): the flag-setting instructions and the random byte -/

namespace Sys2Proof.Machine

theorem exec_addReg (x y : Reg) (s : State) : exec (.addReg x y) s =
    .next (s.setRegAndFlag x (s.reg x + s.reg y) (carryFlag (s.reg x) (s.reg y))).advance := rfl

theorem exec_subReg (x y : Reg) (s : State) : exec (.subReg x y) s =
    .next (s.setRegAndFlag x (s.reg x - s.reg y) (greaterFlag (s.reg x) (s.reg y))).advance := rfl

theorem exec_subnReg (x y : Reg) (s : State) : exec (.subnReg x y) s =
    .next (s.setRegAndFlag x (s.reg y - s.reg x) (greaterFlag (s.reg y) (s.reg x))).advance := rfl

theorem exec_shr (x y : Reg) (s : State) : exec (.shr x y) s =
    .next (s.setRegAndFlag x (s.shiftOperand x y >>> 1) (lowBitFlag (s.shiftOperand x y))).advance := rfl

theorem exec_shl (x y : Reg) (s : State) : exec (.shl x y) s =
    .next (s.setRegAndFlag x (s.shiftOperand x y <<< 1) (highBitFlag (s.shiftOperand x y))).advance := rfl

theorem exec_rnd (x : Reg) (kk : Byte) (s : State) :
    exec (.rnd x kk) s = .next ((s.setReg x (s.rndNext &&& kk)).countDraw).advance := rfl

/-- VF is written last, so it holds the flag even where it is the destination (R130 item 3). -/
theorem State.reg_setRegAndFlag_VF (s : State) (x : Reg) (b f : Byte) : (s.setRegAndFlag x b f).advance.reg VF = f := by
  simp

theorem State.reg_setRegAndFlag_of_ne (s : State) {x : Reg} (h : x ≠ VF) (b f : Byte) :
    (s.setRegAndFlag x b f).advance.reg x = b := by
  simp [h]

theorem State.pc_setRegAndFlag_advance (s : State) (x : Reg) (b f : Byte) :
    (s.setRegAndFlag x b f).advance.pc = s.pc + 2 := by
  simp

theorem State.setRegAndFlag_advance_within (s : State) (x : Reg) (b f : Byte) :
    Within { regs := [x, VF] } s (s.setRegAndFlag x b f).advance := by
  constructor
  case regs =>
    intro r hr
    have hne : r ≠ x ∧ r ≠ VF := by simpa using hr
    simp [hne]
  all_goals simp

/-- An instruction that is one write of Vx and the flag, said by the values written; with x = 15 VF is the flag (R130). -/
theorem exists_exec_of_setRegAndFlag {i : Instr} {s : State} {x : Reg} {b f : Byte} {vx vf : Nat}
    (h : exec i s = .next (s.setRegAndFlag x b f).advance) (hf : f.toNat = vf) (hb : b.toNat = vx) :
    ∃ t, exec i s = .next t ∧ (t.reg VF).toNat = vf ∧ (x ≠ VF → (t.reg x).toNat = vx) ∧ t.pc = s.pc + 2 ∧
      Within { regs := [x, VF] } s t := by
  refine ⟨_, h, ?_, fun hx => ?_, s.pc_setRegAndFlag_advance x b f, s.setRegAndFlag_advance_within x b f⟩
  · rw [State.reg_setRegAndFlag_VF, hf]
  · rw [State.reg_setRegAndFlag_of_ne s hx, hb]

/-- A draw of the random byte writes its register and the count of draws (R142). -/
theorem State.setReg_countDraw_advance_within (s : State) (x : Reg) (b : Byte) :
    Within { regs := [x], rnd := true } s ((s.setReg x b).countDraw).advance := by
  constructor
  case regs =>
    intro r hr
    have hne : r ≠ x := by simpa using hr
    simp [hne]
  all_goals simp

/-- The difference of two bytes is the difference modulo 256 (R138, R140). -/
theorem toNat_byte_sub (a b : Byte) : (a - b).toNat = (a.toNat + 256 - b.toNat) % 256 := by
  rw [BitVec.toNat_sub]
  congr 1
  omega

theorem State.shiftOperand_eq (s : State) (x y : Reg) :
    s.shiftOperand x y = s.reg (if s.spec.quirks.shiftUsesSecondOperand then y else x) := by
  unfold State.shiftOperand
  split <;> rfl

theorem toNat_byte_shiftLeft_one (a : Byte) : (a <<< 1).toNat = 2 * a.toNat % 256 := by
  rw [BitVec.toNat_shiftLeft, Nat.shiftLeft_eq]
  omega

theorem toNat_byte_ushiftRight_one (a : Byte) : (a >>> 1).toNat = a.toNat / 2 := by
  rw [BitVec.toNat_ushiftRight, Nat.shiftRight_eq_div_pow]

end Sys2Proof.Machine

section
open Sys2Proof Sys2Proof.Machine

/-- Settles O36: the sum and then the carry, both of the entry operands. -/
theorem addSetsCarry : Obligations.AddSetsCarry :=
  ⟨rowDecodes_F00F_8 rfl fun _ => decodeFamily8_of_fieldN_4, fun s x y =>
    exists_exec_of_setRegAndFlag (exec_addReg x y s) (toNat_carryFlag _ _) (BitVec.toNat_add _ _)⟩

/-- Settles O37: the difference and then the strict comparison, both of the entry operands. -/
theorem subtractionsSetNotBorrow : Obligations.SubtractionsSetNotBorrow := by
  refine ⟨rowDecodes_F00F_8 rfl fun _ => decodeFamily8_of_fieldN_5,
    rowDecodes_F00F_8 rfl fun _ => decodeFamily8_of_fieldN_7, fun s x y => ⟨?_, ?_⟩⟩
  · exact exists_exec_of_setRegAndFlag (exec_subReg x y s) (toNat_greaterFlag _ _) (toNat_byte_sub _ _)
  · exact exists_exec_of_setRegAndFlag (exec_subnReg x y s) (toNat_greaterFlag _ _) (toNat_byte_sub _ _)

/-- Settles O38: the shifted operand and then the bit that left it. -/
theorem shiftsSetTheBitShiftedOut : Obligations.ShiftsSetTheBitShiftedOut := by
  refine ⟨rowDecodes_F00F_8 rfl fun _ => decodeFamily8_of_fieldN_6,
    rowDecodes_F00F_8 rfl fun _ => decodeFamily8_of_fieldN_E, fun s x y v hv => ?_⟩
  rw [← State.shiftOperand_eq] at hv
  subst hv
  constructor
  · exact exists_exec_of_setRegAndFlag (exec_shr x y s) (toNat_lowBitFlag _) (toNat_byte_ushiftRight_one _)
  · exact exists_exec_of_setRegAndFlag (exec_shl x y s) (toNat_highBitFlag _) (toNat_byte_shiftLeft_one _)

/-- Settles O39: the free byte of this draw under the mask, bit by bit. -/
theorem randomByteIsMasked : Obligations.RandomByteIsMasked := by
  refine ⟨rowDecodes_F000 fun _ => decodeWord_of_fieldC_C, fun s x kk => ⟨_, exec_rnd x kk s, fun k => ?_, rfl, rfl,
    s.setReg_countDraw_advance_within x _⟩⟩
  have hx : ((s.setReg x (s.rndNext &&& kk)).countDraw).advance.reg x = Config.rndByte s.rndDraws &&& kk := by
    simp [State.rndNext]
  rw [hx, BitVec.getLsbD_and]

end

/-! ## Index register and memory (spec/43_index_memory.md): the glyph address and the transfers -/

namespace Sys2Proof.Machine

theorem exec_ldFont (x : Reg) (s : State) :
    exec (.ldFont x) s = .next (s.setIndex (BitVec.ofNat 16 (s.spec.glyphSize * (s.reg x).toNat))).advance := rfl

/-! ### Fx33 -/

theorem length_bcdDigits (b : Byte) : (bcdDigits b).length = 3 := rfl

/-- Each digit fits a byte. -/
theorem toNat_bcdDigits (b : Byte) :
    (BitVec.ofNat 8 (b.toNat / 100)).toNat = b.toNat / 100 ∧
    (BitVec.ofNat 8 (b.toNat / 10 % 10)).toNat = b.toNat / 10 % 10 ∧
    (BitVec.ofNat 8 (b.toNat % 10)).toNat = b.toNat % 10 := by
  have hb := b.isLt
  simp only [BitVec.toNat_ofNat]
  omega

/-- What Fx33 leaves at each address: the digit it stored there, or the byte before (R163). -/
theorem State.readMem_storeDigits (s : State) (a : Nat) (b : Byte) (z : Nat) :
    ((s.writeMem a (bcdDigits b)).advance.readMem z).toNat =
      if z = a then b.toNat / 100 else if z = a + 1 then b.toNat / 10 % 10
      else if z = a + 2 then b.toNat % 10 else (s.readMem z).toNat := by
  obtain ⟨h0, h1, h2⟩ := toNat_bcdDigits b
  show ((s.writeMem a (bcdDigits b)).readMem z).toNat = _
  rw [State.readMem_writeMem]
  by_cases hz : a ≤ z ∧ z < a + (bcdDigits b).length
  · rw [dif_pos hz]
    rw [length_bcdDigits] at hz
    obtain rfl | rfl | rfl : z = a ∨ z = a + 1 ∨ z = a + 2 := by omega
    · simp [bcdDigits, h0]
    · simp [bcdDigits, h1]
    · simp [bcdDigits, h2]
  · rw [dif_neg hz]
    rw [length_bcdDigits] at hz
    rw [if_neg (by omega), if_neg (by omega), if_neg (by omega)]

theorem State.storeDigits_within (s : State) (a : Nat) (b : Byte) :
    Within { mem := [a, a + 1, a + 2] } s (s.writeMem a (bcdDigits b)).advance := by
  constructor
  case mem =>
    intro z hz
    obtain ⟨h0, h1, h2⟩ : z ≠ a ∧ z ≠ a + 1 ∧ z ≠ a + 2 := by simpa using hz
    refine BitVec.eq_of_toNat_eq ?_
    rw [State.readMem_storeDigits, if_neg h0, if_neg h1, if_neg h2]
  all_goals simp

/-! ### Fx55 and Fx65 -/

/-- What Fx55 leaves at each address: the register it stored there, or the byte before (R164). -/
theorem State.readMem_storeRegs (s : State) (x : Reg) (a z : Nat) :
    ((s.writeMem a (s.regsUpTo x)).bumpIndex x).advance.readMem z =
      if a ≤ z ∧ z ≤ a + x.toNat then s.reg (BitVec.ofNat 4 (z - a)) else s.readMem z := by
  have hread : ((s.writeMem a (s.regsUpTo x)).bumpIndex x).advance.readMem z =
      (s.writeMem a (s.regsUpTo x)).readMem z := by simp
  rw [hread, State.readMem_writeMem]
  by_cases hz : a ≤ z ∧ z ≤ a + x.toNat
  · rw [dif_pos (by rw [State.length_regsUpTo]; omega), if_pos hz, State.getElem_regsUpTo]
  · rw [dif_neg (by rw [State.length_regsUpTo]; omega), if_neg hz]

/-- The byte Fx55 stores for one register. -/
theorem State.readMem_storeRegs_add (s : State) {x r : Reg} (h : r.toNat ≤ x.toNat) (a : Nat) :
    ((s.writeMem a (s.regsUpTo x)).bumpIndex x).advance.readMem (a + r.toNat) = s.reg r := by
  rw [State.readMem_storeRegs, if_pos (by omega), Nat.add_sub_cancel_left, BitVec.ofNat_toNat, BitVec.setWidth_eq]

theorem State.storeRegs_within (s : State) (x : Reg) (a : Nat) :
    Within { mem := List.range' a (x.toNat + 1), index := true } s
      ((s.writeMem a (s.regsUpTo x)).bumpIndex x).advance := by
  constructor
  case mem =>
    intro z hz
    rw [List.mem_range'_1] at hz
    rw [State.readMem_storeRegs, if_neg (by omega)]
  all_goals simp

/-- Sixteen numbers name all the registers. -/
theorem mem_allRegs (r : Reg) : r ∈ (List.range 16).map (BitVec.ofNat 4) := by
  rw [List.mem_map]
  exact ⟨r.toNat, List.mem_range.mpr r.isLt, by rw [BitVec.ofNat_toNat, BitVec.setWidth_eq]⟩

theorem State.loadRegs_within (s : State) (x : Reg) (a : Nat) :
    Within { regs := (List.range 16).map (BitVec.ofNat 4), index := true } s
      ((s.loadRegsFrom x a).bumpIndex x).advance := by
  constructor
  case regs => exact fun r hr => absurd (mem_allRegs r) hr
  all_goals simp

/-- Inside memory the increment of I does not wrap (R164, R165). -/
theorem State.toNat_bumpIndex_i {s : State} {x : Reg} (h : s.i.toNat + x.toNat ≤ 0xFFF) :
    (s.bumpIndex x).i.toNat = s.i.toNat + if s.spec.quirks.loadStoreIncrementsIndex then x.toNat + 1 else 0 := by
  rw [State.bumpIndex_i]
  split
  · have hx := x.isLt
    have hone : (1 : Word).toNat = 1 := rfl
    simp only [BitVec.toNat_add, BitVec.toNat_setWidth, hone]
    omega
  · rfl

/-! ### The next fetch -/

/-- The opcode two bytes on, from the bytes of memory there (R53). -/
theorem State.toNat_fetchOp_of_advance {s t : State} {byteAt : Nat → Nat} (hpc : t.pc = s.pc + 2)
    (h : s.pc.toNat + 3 ≤ 0xFFF) (hbyte : ∀ a, (t.readMem a).toNat = byteAt a) :
    t.fetchOp.toNat = 256 * byteAt (s.pc.toNat + 2) + byteAt (s.pc.toNat + 3) := by
  have hnext : t.pc.toNat = s.pc.toNat + 2 := by rw [hpc]; bv_omega
  rw [State.fetchOp, toNat_wordOfBytes, hbyte, hbyte, hnext]

end Sys2Proof.Machine

section
open Sys2Proof Sys2Proof.Machine

/-- Settles O41: one write of I, and a word is a number modulo 65536. -/
theorem fontPointerIsGlyphAddress : Obligations.FontPointerIsGlyphAddress := by
  refine ⟨rowDecodes_F0FF_F rfl fun _ => decodeFamilyF_of_fieldKK_29, fun s x => ⟨_, exec_ldFont x s, ?_,
    s.pc_setIndex_advance _, s.setIndex_advance_within _⟩⟩
  rw [State.i_setIndex_advance, BitVec.toNat_ofNat]

/-- Settles O42: the three digits, which make up the byte, or the fault. -/
theorem bcdStoresThreeDigits : Obligations.BcdStoresThreeDigits := by
  refine ⟨rowDecodes_F0FF_F rfl fun _ => decodeFamilyF_of_fieldKK_33, fun s x => ⟨fun h => ?_, fun h => ?_⟩⟩
  · have hbyte := s.readMem_storeDigits s.i.toNat (s.reg x)
    have h0 := (hbyte s.i.toNat).trans (if_pos rfl)
    have h1 := ((hbyte (s.i.toNat + 1)).trans (if_neg (by omega))).trans (if_pos rfl)
    have h2 := (((hbyte (s.i.toNat + 2)).trans (if_neg (by omega))).trans (if_neg (by omega))).trans (if_pos rfl)
    exact ⟨_, exec_ldBcd_ok h, h0, h1, h2, by rw [h0, h1, h2]; omega, rfl, s.storeDigits_within _ _⟩
  · exact ⟨_, _, exec_ldBcd_fault h, decodeWord_encode _, raiseFault_taken s _ _⟩

/-- Settles O43: the registers stored ascending from I, or the fault. -/
theorem storeRegistersToMemory : Obligations.StoreRegistersToMemory := by
  refine ⟨rowDecodes_F0FF_F rfl fun _ => decodeFamilyF_of_fieldKK_55, fun s x => ⟨fun h => ?_, fun h => ?_⟩⟩
  · exact ⟨_, exec_stRegs_ok h, fun r hr => s.readMem_storeRegs_add hr _,
      State.toNat_bumpIndex_i (s := s.writeMem _ _) h, by simp, s.storeRegs_within x _⟩
  · exact ⟨_, _, exec_stRegs_fault h, decodeWord_encode _, raiseFault_taken s _ _⟩

/-- Settles O44: the registers loaded ascending from I, or the fault. -/
theorem loadRegistersFromMemory : Obligations.LoadRegistersFromMemory := by
  refine ⟨rowDecodes_F0FF_F rfl fun _ => decodeFamilyF_of_fieldKK_65, fun s x => ⟨fun h => ?_, fun h => ?_⟩⟩
  · refine ⟨_, exec_ldRegs_ok h, fun r hr => ?_, fun r hr => ?_,
      State.toNat_bumpIndex_i (s := s.loadRegsFrom x _) h, by simp, s.loadRegs_within x _⟩
    · simp [hr]
    · simp [Nat.not_le_of_lt hr]
  · exact ⟨_, _, exec_ldRegs_fault h, decodeWord_encode _, raiseFault_taken s _ _⟩

/-- Settles O45: Fx65 loads from each address the register Fx55 stored there. -/
theorem storeThenLoadRoundTrips : Obligations.StoreThenLoadRoundTrips := by
  intro s x h
  refine ⟨_, exec_stRegs_ok h, fun u hui humem => ?_⟩
  refine ⟨_, exec_ldRegs_ok (by rwa [hui]), fun r hr => ?_⟩
  have hstored : u.readMem (s.i.toNat + r.toNat) = s.reg r := by
    rw [State.readMem, humem]
    exact s.readMem_storeRegs_add hr _
  simp [hr, hui, hstored]

/-- Settles O46: the fetch reads the bytes the store left. -/
theorem storedBytesAreFetchedNext : Obligations.StoredBytesAreFetchedNext := by
  refine ⟨fun s x byteAt hI hpc hbyte => ?_, fun s x byteAt hI hpc hbyte => ?_⟩
  · refine ⟨_, exec_stRegs_ok hI, by simp, State.toNat_fetchOp_of_advance (by simp) hpc fun a => ?_⟩
    rw [State.readMem_storeRegs, hbyte]
    split <;> rfl
  · refine ⟨_, exec_ldBcd_ok hI, rfl, State.toNat_fetchOp_of_advance rfl hpc fun a => ?_⟩
    rw [State.readMem_storeDigits, hbyte]

end

/-! ## Display (spec/44_display.md section 2): the draw, its collision, and the clipped placement -/

namespace Sys2Proof.Machine

/-! ### The pixels after a draw -/

/-- Each pixel is flipped as often as the list names it (R181, R185). -/
theorem read_xorPixels (fb : Framebuffer) (c : Byte) (ks : List Nat) (k : Nat) :
    Framebuffer.read (xorPixels fb c ks).1 k =
      if ks.count k % 2 = 1 then Framebuffer.read fb k ^^^ 1 else Framebuffer.read fb k := by
  induction ks generalizing fb c with
  | nil => rfl
  | cons j rest ih =>
    rw [xorPixels, ih, Framebuffer.read_write]
    by_cases hk : k = j
    · subst hk
      rw [List.count_cons_self, if_pos rfl, BitVec.xor_assoc, BitVec.xor_self, BitVec.xor_zero]
      by_cases hodd : rest.count k % 2 = 1
      · rw [if_pos hodd, if_neg (by omega)]
      · rw [if_neg hodd, if_pos (by omega)]
    · rw [if_neg hk, List.count_cons_of_ne (Ne.symm hk)]

/-- Two draws of the same pixels cancel, whatever was on the screen. -/
theorem read_xorPixels_twice (fb : Framebuffer) (c d : Byte) (ks : List Nat) (k : Nat) :
    Framebuffer.read (xorPixels (xorPixels fb c ks).1 d ks).1 k = Framebuffer.read fb k := by
  rw [read_xorPixels, read_xorPixels]
  by_cases hodd : ks.count k % 2 = 1
  · rw [if_pos hodd, if_pos hodd, BitVec.xor_assoc, BitVec.xor_self, BitVec.xor_zero]
  · rw [if_neg hodd, if_neg hodd]

/-- A screen of 0s and 1s, as every read shows it (R31). -/
def Framebuffer.Bits (fb : Framebuffer) : Prop := ∀ k, Framebuffer.read fb k = 0 ∨ Framebuffer.read fb k = 1

theorem Framebuffer.Bits.flip {fb : Framebuffer} (h : fb.Bits) (j : Nat) :
    (Framebuffer.write fb j (Framebuffer.read fb j ^^^ 1)).Bits := by
  intro k
  rw [Framebuffer.read_write]
  split
  · rcases h j with hj | hj <;> rw [hj] <;> decide
  · exact h k

theorem Framebuffer.Bits.xorPixels {fb : Framebuffer} (h : fb.Bits) (c : Byte) (ks : List Nat) :
    Framebuffer.Bits (Machine.xorPixels fb c ks).1 := by
  induction ks generalizing fb c with
  | nil => exact h
  | cons j rest ih => exact ih (h.flip j) _

/-! ### The collision -/

/-- A collision found stays (R184). -/
theorem collision_kept {fb : Framebuffer} (h : fb.Bits) (ks : List Nat) : (xorPixels fb 1 ks).2 = 1 := by
  induction ks generalizing fb with
  | nil => rfl
  | cons j rest ih =>
    have hone : collisionFlag 1 (Framebuffer.read fb j) = 1 := by rcases h j with hj | hj <;> rw [hj] <;> decide
    rw [xorPixels, hone]
    exact ih (h.flip j)

/-- The collision accumulated is a bit. -/
theorem collisionFlag_bit {c p : Byte} (hc : c = 0 ∨ c = 1) (hp : p = 0 ∨ p = 1) :
    collisionFlag c p = 0 ∨ collisionFlag c p = 1 := by
  rcases hc with rfl | rfl <;> rcases hp with rfl | rfl <;> decide

/-- A touched pixel that is set gives a collision: no earlier flip clears it, or that flip finds it set. -/
theorem collision_of_set {fb : Framebuffer} (h : fb.Bits) {c : Byte} (hc : c = 0 ∨ c = 1) {ks : List Nat} {k : Nat}
    (hk : k ∈ ks) (hset : Framebuffer.read fb k = 1) : (xorPixels fb c ks).2 = 1 := by
  induction ks generalizing fb c with
  | nil => cases hk
  | cons j rest ih =>
    rw [xorPixels]
    by_cases hkj : k = j
    · subst hkj
      have hone : collisionFlag c (Framebuffer.read fb k) = 1 := by rcases hc with rfl | rfl <;> rw [hset] <;> decide
      rw [hone]
      exact collision_kept (h.flip k) rest
    · refine ih (h.flip j) (collisionFlag_bit hc (h j)) ((List.mem_cons.mp hk).resolve_left hkj) ?_
      rw [Framebuffer.read_write, if_neg hkj, hset]

/-- A pixel touched twice gives a collision: one of its first two flips finds it set. -/
theorem collision_of_touched_twice {fb : Framebuffer} (h : fb.Bits) {c : Byte} (hc : c = 0 ∨ c = 1) {ks : List Nat}
    {k : Nat} (hk : 2 ≤ ks.count k) : (xorPixels fb c ks).2 = 1 := by
  induction ks generalizing fb c with
  | nil => simp at hk
  | cons j rest ih =>
    by_cases hkj : k = j
    · subst hkj
      rw [List.count_cons_self] at hk
      rcases h k with hzero | hone
      · have hrest : k ∈ rest := List.count_pos_iff.mp (by omega)
        refine collision_of_set (h.flip k) (collisionFlag_bit hc (h k)) hrest ?_
        rw [Framebuffer.read_write, if_pos rfl, hzero]
        rfl
      · exact collision_of_set h hc (List.mem_cons_self ..) hone
    · rw [List.count_cons_of_ne (Ne.symm hkj)] at hk
      exact ih (h.flip j) (collisionFlag_bit hc (h j)) hk

/-- Where every touched pixel is clear and none is touched twice there is no collision. -/
theorem collision_of_clear {fb : Framebuffer} {ks : List Nat} (hnodup : ks.Nodup)
    (hclear : ∀ k ∈ ks, Framebuffer.read fb k = 0) : (xorPixels fb 0 ks).2 = 0 := by
  induction ks generalizing fb with
  | nil => rfl
  | cons j rest ih =>
    obtain ⟨hj, hrest⟩ := List.nodup_cons.mp hnodup
    rw [xorPixels, hclear j (List.mem_cons_self ..)]
    refine ih hrest fun k hk => ?_
    have hkj : k ≠ j := by rintro rfl; exact hj hk
    rw [Framebuffer.read_write, if_neg hkj, hclear k (List.mem_cons_of_mem _ hk)]

/-! ### The draw -/

theorem State.drawPixels_advance_within (s : State) (ks : List Nat) :
    Within { regs := [VF], screen := true, draw := true } s (s.drawPixels ks).advance := by
  constructor
  case regs =>
    intro r hr
    have hne : r ≠ VF := by simpa using hr
    simp [hne]
  all_goals simp

/-- VF holds the collision after a draw (R184). -/
theorem State.reg_VF_drawPixels_advance (s : State) (ks : List Nat) :
    (s.drawPixels ks).advance.reg VF = (xorPixels s.fb 0 ks).2 := by
  simp

/-- A sprite of no rows touches no pixel (R181). -/
theorem State.touchedPixels_zero (s : State) (x y : Reg) : s.touchedPixels x y 0 = [] := rfl

/-- A draw touches the same pixels again once V is put back: it leaves I, memory and SPEC. -/
theorem State.touchedPixels_after_draw (s : State) (x y : Reg) (n : Nibble) (ks : List Nat) :
    State.touchedPixels { (s.drawPixels ks).advance with v := s.v } x y n = s.touchedPixels x y n :=
  State.touchedPixels_congr rfl rfl rfl (fun _ _ => rfl) rfl rfl rfl

/-! ### The clipped placement -/

/-- With wrapSprites clear a set bit has a target where both coordinates stay on the screen (R183). -/
theorem bitTarget_eq_some_of_not_wrapSprites {p : PlatformSpec} (h : p.quirks.wrapSprites = false) {vx vy r : Nat}
    {row : Byte} {c k : Nat} : bitTarget p vx vy r row c = some k ↔
      ((row.getLsbD (7 - c) = true ∧ vx % p.videoWidth + c < p.videoWidth) ∧ vy % p.videoHeight + r < p.videoHeight) ∧
        k = (vy % p.videoHeight + r) * p.videoWidth + (vx % p.videoWidth + c) := by
  rw [bitTarget_eq_some]
  by_cases hin : vx % p.videoWidth + c < p.videoWidth ∧ vy % p.videoHeight + r < p.videoHeight
  · simp [place, h, hin, pixelIndex]
  · simp only [place, h, hin, if_false, Bool.false_eq_true, reduceCtorEq, false_and, exists_false, and_false, false_iff]
    rintro ⟨⟨⟨-, hx⟩, hy⟩, -⟩
    exact hin ⟨hx, hy⟩

end Sys2Proof.Machine

section
open Sys2Proof Sys2Proof.Machine

/-- Settles O48: a draw flips each pixel by the count of its touches, or takes the fault. -/
theorem drawFlipsTheTouchedPixels : Obligations.DrawFlipsTheTouchedPixels := by
  refine ⟨rowDecodes_F000 fun _ => decodeWord_of_fieldC_D, fun s x y n => ⟨fun h => ?_, fun h0 h => ?_⟩⟩
  · refine ⟨_, exec_drw_ok h, fun k => read_xorPixels s.fb 0 _ k, fun hn => ?_, rfl, rfl,
      s.drawPixels_advance_within _⟩
    rw [hn, State.touchedPixels_zero, State.reg_VF_drawPixels_advance]
    rfl
  · exact ⟨_, _, exec_drw_fault h0 h, decodeWord_encode _, raiseFault_taken s _ _⟩

/-- Settles O49: VF is the collision, which one set or twice touched pixel decides. -/
theorem collisionIsAnyTouchedPixelSet : Obligations.CollisionIsAnyTouchedPixelSet := by
  intro s x y n hfb h
  have hbits : Framebuffer.Bits s.fb := Framebuffer.read_bit hfb
  refine ⟨_, exec_drw_ok h, fun hset => ?_, fun hclear => ?_⟩
  · rw [State.reg_VF_drawPixels_advance]
    obtain ⟨k, hk, hone | htwice⟩ := hset
    · exact collision_of_set hbits (.inl rfl) hk hone
    · exact collision_of_touched_twice hbits (.inl rfl) htwice
  · rw [State.reg_VF_drawPixels_advance]
    exact collision_of_clear (List.nodup_iff_count_eq_one.mpr fun k hk => (hclear k hk).2) fun k hk => (hclear k hk).1

/-- Settles O51: a draw counts the bits by their targets, and with wrapSprites clear only the bits that stay on the screen
have one. -/
theorem clippedSpritePlacement : Obligations.ClippedSpritePlacement := by
  intro s x y n hwrap k
  rw [State.count_touchedPixels]
  simp only [bitTarget_eq_some_of_not_wrapSprites hwrap, Bool.decide_and, Bool.decide_eq_true]

/-- Settles O52: the second draw touches the same pixels, so it undoes the first and finds every pixel that one set. -/
theorem drawTwiceRestoresTheScreen : Obligations.DrawTwiceRestoresTheScreen := by
  intro s x y n h
  have hsecond := exec_drw_ok (x := x) (y := y)
    (s := { (s.drawPixels (s.touchedPixels x y n)).advance with v := s.v }) h
  rw [State.touchedPixels_after_draw] at hsecond
  refine ⟨_, _, exec_drw_ok h, hsecond, fun px py => ?_, fun hblank hnodup hne => ⟨?_, ?_⟩⟩
  · exact read_xorPixels_twice s.fb 0 0 _ _
  · rw [State.reg_VF_drawPixels_advance, hblank]
    exact collision_of_clear hnodup fun k _ => Framebuffer.read_nil k
  · obtain ⟨k, hk⟩ := List.exists_mem_of_ne_nil _ hne
    have hbits : Framebuffer.Bits s.fb := by rw [hblank]; exact fun k => .inl (Framebuffer.read_nil k)
    rw [State.reg_VF_drawPixels_advance]
    refine collision_of_set (hbits.xorPixels 0 _) (.inl rfl) hk ?_
    rw [read_xorPixels, List.count_eq_one_of_mem hnodup hk, hblank, Framebuffer.read_nil, if_pos (by decide)]
    rfl

end

/-! ## Keypad and timers (spec/45_keypad_timers.md): the key skips, the wait for a key, and the timer writes -/

namespace Sys2Proof.Machine

theorem exec_ldDtVx (x : Reg) (s : State) : exec (.ldDtVx x) s = .next (s.setDelay (s.reg x)).advance := rfl

theorem exec_ldStVx (x : Reg) (s : State) : exec (.ldStVx x) s = .next (s.setSound (s.reg x)).advance := rfl

theorem State.setDelay_advance_within (s : State) (b : Byte) : Within { dt := true } s (s.setDelay b).advance := by
  constructor <;> simp

theorem State.setSound_advance_within (s : State) (b : Byte) : Within { st := true } s (s.setSound b).advance := by
  constructor <;> simp

/-- A step that has no effect of its own keeps to the timers and the per-step outputs (R94, R95). -/
theorem State.beginStep_tickTone_within (s : State) (b : Byte) :
    Within { dt := true, st := true, tone := true, report := true, draw := true } s (s.beginStep.tickTone b) := by
  constructor <;> simp

end Sys2Proof.Machine

section
open Sys2Proof Sys2Proof.Machine

/-- Settles O53: the two skips have opposite conditions and one fault. -/
theorem keySkips : Obligations.KeySkips := by
  refine ⟨rowDecodes_F0FF_E rfl fun _ => decodeFamilyE_of_fieldKK_9E,
    rowDecodes_F0FF_E rfl fun _ => decodeFamilyE_of_fieldKK_A1, fun s x => ⟨fun h => ⟨?_, ?_⟩, fun h => ⟨?_, ?_⟩⟩⟩
  · exact ⟨_, exec_skp_ok h, s.skipIf_pc _, s.skipIf_within _⟩
  · exact ⟨_, exec_sknp_ok h, by simp, s.skipIf_within _⟩
  · exact ⟨_, _, exec_skp_fault h, decodeWord_encode _, raiseFault_taken s _ _⟩
  · exact ⟨_, _, exec_sknp_fault h, decodeWord_encode _, raiseFault_taken s _ _⟩

/-- Settles O54: the least key is written, or the instruction has no effect and its step is the tick and TONE. -/
theorem waitForKeySpins : Obligations.WaitForKeySpins := by
  refine ⟨rowDecodes_F0FF_F rfl fun _ => decodeFamilyF_of_fieldKK_0A,
    fun s x => ⟨fun k hk hpressed hleast => ?_, fun hnone => ?_⟩⟩
  · refine ⟨_, exec_ldVxKey_some (leastKey_eq_some.mpr ⟨hk, hpressed, hleast⟩), ?_, s.pc_setReg_advance x _,
      s.setReg_advance_within x _⟩
    rw [State.reg_setReg_advance, BitVec.toNat_ofNat]
    omega
  · have hkey := leastKey_eq_none.mpr hnone
    refine ⟨exec_ldVxKey_none hkey, fun hs hi => ?_⟩
    exact ⟨_, step_ldVxKey_none hs hi hkey, rfl, toNat_countDown s.dt, toNat_countDown s.st, rfl, rfl, rfl, rfl,
      s.beginStep_tickTone_within _⟩

/-- Settles O56: each is one write of its timer. -/
theorem setTimers : Obligations.SetTimers := by
  refine ⟨rowDecodes_F0FF_F rfl fun _ => decodeFamilyF_of_fieldKK_15,
    rowDecodes_F0FF_F rfl fun _ => decodeFamilyF_of_fieldKK_18, fun s x => ⟨?_, ?_⟩⟩
  · exact ⟨_, exec_ldDtVx x s, rfl, rfl, s.setDelay_advance_within _⟩
  · exact ⟨_, exec_ldStVx x s, rfl, rfl, s.setSound_advance_within _⟩

end
